-- ==== Sys2Proof/Word.lean ====
section
/-! DEFINITION. The two value types of the block and the readings of a 32-bit word (spec/00_scope.md R6, R8, R9). -/

namespace Sys2Proof

/-- A 32-bit word with no sign of its own: `nat(w)` is `w.toNat`, `int(w)` is `w.toInt` (R9). -/
abbrev Word32 := BitVec 32

/-- A ByteStream element, and one byte of memory (R6, R9). -/
abbrev Byte := BitVec 8

/-- `wrap32(z)`: the word whose unsigned value is `z mod 2^32` (R9). -/
def wrap32 (z : Int) : Word32 := BitVec.ofInt 32 z

end Sys2Proof
end

