-- ==== Sys2Proof/Config.lean ====
section
/-! DEFINITION. What stays fixed while the machine runs: the platform's parameters (spec/00_scope.md R7, spec/10_state.md R32),
and the free values the spec leaves open. A free value is an opaque constant: nothing in Lean can say what it is. -/

namespace Sys2Proof

/-- The byte addresses `base .. base + size - 1`; none when `size = 0` (R66). -/
structure Region where
  base : Nat
  size : Nat
  deriving DecidableEq, Repr

/-- What a varint command does with LEN = 0: the open parameter VARINT_EMPTY (R7, R114). -/
inductive VarintEmpty where
  | accept
  | reject
  deriving DecidableEq, Repr, Inhabited

/-- The parameters of R7 and R32, as plain data that no step changes. -/
structure Platform where
  /-- ADDR_W: addresses are the numbers below `2 ^ addrW` (R60). -/
  addrW : Nat
  /-- BASE: host address of the register window (R42). -/
  base : Nat
  /-- The addresses below `2 ^ addrW` that do not exist: `Backed` is false exactly there (R61). -/
  holes : List Region
  /-- VARINT_EMPTY (R114). -/
  varintEmpty : VarintEmpty
  deriving DecidableEq, Repr

namespace Config

/-- The spec's value of ADDR_W (R7, D2). -/
def addrW : Nat := 32

/-- The spec fixes no value of VARINT_EMPTY, so reset holds one that nothing constrains (R7). FREE VALUE, log entry 4. -/
opaque varintEmpty : VarintEmpty

/-- The window's place in units of four bytes; the spec leaves it open (R7). FREE VALUE, log entry 5. -/
opaque baseWord : Nat

/-- BASE at reset: any 4-byte-aligned host address (R7). -/
def base : Nat := 4 * baseWord

/-- The parameters a run from reset has: ADDR_W = 32, every address backed, the rest open (R7, R61). -/
def platform : Platform := ⟨addrW, base, [], varintEmpty⟩

/-- The `k`-th status draw: `true` reports NullPointer, `false` InvalidLength (R115). FREE VALUE, log entry 6. -/
opaque statusDraw : Nat → Bool

/-- The `k`-th word draw: the value of an overlong varint value (R187, R190). FREE VALUE, log entry 7. -/
opaque freeWord : Nat → Word32

/-- What host variable `t` holds before the program assigns it; the spec does not say. FREE VALUE, log entry 8. -/
opaque hostVarInit : Nat → Word32

end Config

end Sys2Proof
end

