-- ==== Sys2Proof/Syntax.lean ====
section
/-! DEFINITION. The six commands of spec/opcode_table.json, the register names, and the host's actions (spec/30_encoding.md R98). -/

namespace Sys2Proof

/-- The commands, one constructor per row of spec/opcode_table.json; none has an operand in its word (R91, R92, R94). -/
inductive Instr where
  | deltaEncode
  | deltaDecode
  | zigzagEncode
  | zigzagDecode
  | varintEncode
  | varintDecode
  deriving DecidableEq, Repr

/-- The block's six registers (R33). -/
inductive RegName where
  | cmd
  | src
  | dst
  | len
  | olen
  | status
  deriving DecidableEq, Repr

/-- An operand of a host action: a 32-bit literal or a host variable (R98). -/
inductive HostOperand where
  | lit (w : Word32)
  | var (t : Nat)
  deriving DecidableEq, Repr

/-- One action of the host program (R98). A label is the number of the action it stands before. -/
inductive HostAction where
  /-- `wr REG, v`: a 32-bit write of the register (R44). -/
  | wr (r : RegName) (v : HostOperand)
  /-- `rd t, REG`: a 32-bit read of the register (R43). -/
  | rd (t : Nat) (r : RegName)
  /-- A register-window write at any offset and of any width in bits (R42, R103). -/
  | busWrite (off width : Nat) (v : HostOperand)
  /-- A register-window read at any offset and of any width in bits (R42, R103). -/
  | busRead (t off width : Nat)
  /-- `sb a, b`: the low byte of `b` to address `a` of memory. -/
  | sb (a b : HostOperand)
  /-- `sw a, v`: the word `v`, little-endian, to `a .. a+3`. -/
  | sw (a v : HostOperand)
  /-- `lb t, a`: the byte at `a`, widened with zeros. -/
  | lb (t : Nat) (a : HostOperand)
  /-- `lw t, a`: the word at `a .. a+3`, little-endian. -/
  | lw (t : Nat) (a : HostOperand)
  /-- `beq t, v, L`: continue at `L` if `t = v`. -/
  | beq (t : Nat) (v : HostOperand) (target : Nat)
  /-- `bne t, v, L`: continue at `L` if `t ≠ v`. -/
  | bne (t : Nat) (v : HostOperand) (target : Nat)
  /-- `halt`: the host program ends (R272). -/
  | halt
  deriving DecidableEq, Repr

end Sys2Proof
end

