-- ==== Sys2Proof/WellFormed.lean ====
section
/-! DEFINITION. Which terms are well formed: commands, platform parameters (spec/00_scope.md R7) and host programs
(spec/30_encoding.md R98). -/

namespace Sys2Proof

/-- A command has no operand field (R94), so there is nothing in one that could be ill formed. -/
def Instr.wf : Instr → Bool
  | .deltaEncode => true
  | .deltaDecode => true
  | .zigzagEncode => true
  | .zigzagDecode => true
  | .varintEncode => true
  | .varintDecode => true

/-- The bounds R7 sets: 1 ≤ ADDR_W ≤ 32, and BASE is 4-byte aligned. -/
def Platform.wf (p : Platform) : Bool :=
  decide (1 ≤ p.addrW) && decide (p.addrW ≤ 32) && decide (p.base % 4 = 0)

/-- A branch of a program of `n` actions names a label of that program (R98). R98 does not say whether a label may stand after
the last action; that a branch to one, `target = n`, is ill formed is a DESIGN CHOICE (log entry 22). No step asks. -/
def HostAction.wf (n : Nat) : HostAction → Bool
  | .beq _ _ target => decide (target < n)
  | .bne _ _ target => decide (target < n)
  | .wr _ _ => true
  | .rd _ _ => true
  | .busWrite _ _ _ => true
  | .busRead _ _ _ => true
  | .sb _ _ => true
  | .sw _ _ => true
  | .lb _ _ => true
  | .lw _ _ => true
  | .halt => true

/-- Every branch of the program has its label before one of its actions (R98; DESIGN CHOICE for a label after the last one, log
entry 22). An expansion of R101 or R102 whose `Lend` comes last is well formed once an action follows it. -/
def programWf (prog : List HostAction) : Bool :=
  prog.all (HostAction.wf prog.length)

end Sys2Proof
end

