-- ==== Sys2Proof/Decode.lean ====
section
/-! DEFINITION. The command word: decoding, total on every 32-bit word and rejecting by name, and after it the encoder
(spec/30_encoding.md R90 to R93, spec/40_command.md R111). -/

namespace Sys2Proof

/-- Why a command word is ILLEGAL (R93). -/
inductive DecodeReject where
  /-- RSVD, bits 31:8, is not 0. -/
  | reservedBits (v : Word32)
  /-- RSVD is 0 and OPCODE is none of 0x01 .. 0x06. -/
  | unknownOpcode (v : Word32)
  deriving DecidableEq, Repr

/-- A row of the opcode map: the word `v` is this command when `v &&& mask = value` (R92). -/
structure OpcodeRow where
  mask : Word32
  value : Word32
  command : Instr
  deriving DecidableEq, Repr

/-- The opcode map of R92. -/
def opcodeMap : List OpcodeRow :=
  [⟨0xFFFFFFFF#32, 0x00000001#32, .deltaEncode⟩,
   ⟨0xFFFFFFFF#32, 0x00000002#32, .deltaDecode⟩,
   ⟨0xFFFFFFFF#32, 0x00000003#32, .zigzagEncode⟩,
   ⟨0xFFFFFFFF#32, 0x00000004#32, .zigzagDecode⟩,
   ⟨0xFFFFFFFF#32, 0x00000005#32, .varintEncode⟩,
   ⟨0xFFFFFFFF#32, 0x00000006#32, .varintDecode⟩]

/-- Does the word match the row (R92)? -/
def OpcodeRow.matchesWord (row : OpcodeRow) (v : Word32) : Bool :=
  decide (v &&& row.mask = row.value)

/-- `Decode(v)` of R111. It compares all 32 bits and looks at nothing but `v`. -/
def decodeWord (v : Word32) : Except DecodeReject Instr :=
  match opcodeMap.find? (fun row => row.matchesWord v) with
  | some row => .ok row.command
  | none => if v >>> 8 = 0#32 then .error (.unknownOpcode v) else .error (.reservedBits v)

/-- OPCODE, bits 7:0 of the command word (R91, R92). -/
def opcode : Instr → Byte
  | .deltaEncode => 0x01#8
  | .deltaDecode => 0x02#8
  | .zigzagEncode => 0x03#8
  | .zigzagDecode => 0x04#8
  | .varintEncode => 0x05#8
  | .varintDecode => 0x06#8

/-- The command word: RSVD = 0 above OPCODE (R91). -/
def encode (i : Instr) : Word32 := 0x000000#24 ++ opcode i

/-- The command read from a word whose bits are numbered as spec/opcode_table.json numbers them. The table's row is the
whole 32-bit command word, which reaches the block as the data of one 32-bit write, so no byte order enters (R90). -/
def decodeTableWord (nbits w : Nat) : Option Instr :=
  if w % 2 ^ nbits < 2 ^ 32 then
    match decodeWord (BitVec.ofNat 32 (w % 2 ^ nbits)) with
    | .ok i => some i
    | .error _ => none
  else none

end Sys2Proof
end

