-- ==== Sys2Proof/Machine/State.lean ====
section
/-! DEFINITION. The state of the system: the block (spec/10_state.md R31), the host that drives it (R30, R38,
spec/30_encoding.md R98), and its value at reset (R51). -/

namespace Sys2Proof.Machine

/-- What a register holds: R31 gives each register two kinds of content, a word or `unwritten` (R41). `unwritten` is the
spec's own reset value (R51), not a missing one. -/
inductive RegVal where
  | unwritten
  | written (w : Word32)
  deriving DecidableEq, Repr

/-- The six kinds of fault (R236). -/
inductive FaultKind where
  | illegalCommand
  | unwrittenRegister
  | addressRange
  | busError
  | overlap
  | registerAccess
  deriving DecidableEq, Repr

/-- A fault record: the kind, with the info that R237 to R242 give that kind. -/
inductive FaultRecord where
  /-- A CMD write named none of the six commands; info: the command word (R237). -/
  | illegalCommand (v : Word32)
  /-- A register that holds no value was read; info: its name (R238). -/
  | unwrittenRegister (r : RegName)
  /-- A region of `k > 0` bytes from `a` runs past the address space; info: `(a, k)` (R239). -/
  | addressRange (a k : Nat)
  /-- A region or a host access has an address that does not exist; info: the least one (R240). -/
  | busError (a : Nat)
  /-- The output region meets the input region; info: the command word (R241). -/
  | overlap (v : Word32)
  /-- A register-window access that R42 does not allow; info: offset and width, in bits (R242; log entry 19). -/
  | registerAccess (off width : Nat)
  deriving DecidableEq, Repr

/-- The kind of a fault record (R236). -/
def FaultRecord.kind : FaultRecord → FaultKind
  | .illegalCommand _ => .illegalCommand
  | .unwrittenRegister _ => .unwrittenRegister
  | .addressRange _ _ => .addressRange
  | .busError _ => .busError
  | .overlap _ => .overlap
  | .registerAccess _ _ => .registerAccess

/-- The byte memory `mem`, shared by host and block (R60): the listed addresses in rising order. -/
abbrev Memory := List Host.Cell

/-- The host: its program, its position in it, its variables, and whether it has ended (R38, R98, R272). -/
structure HostState where
  program : List HostAction
  /-- The number of the next action (R38). -/
  pos : Nat
  /-- Assigned host variables, by rising number. -/
  vars : List (Nat × Word32)
  /-- The program has executed `halt` (R272). -/
  halted : Bool
  deriving DecidableEq, Repr

/-- The whole system. `cmd` to `mem` are the state of the block, exactly as R31 lists it; the rest is the model's: the
host, the platform's parameters, the reset input, and the counter that numbers the free values taken so far. -/
structure State where
  /-- CMD: the last word the host wrote there (R37). -/
  cmd : RegVal
  /-- SRC: start address of the input buffer (R34). -/
  src : RegVal
  /-- DST: start address of the output buffer (R35). -/
  dst : RegVal
  /-- LEN: input length (R36). -/
  len : RegVal
  /-- OLEN: output count of the varint commands (R39). -/
  olen : RegVal
  /-- STATUS: status code of the last completed command (R40). -/
  status : RegVal
  /-- The fault record (R49). -/
  fault : Option FaultRecord
  /-- The byte memory (R50, R60). -/
  mem : Memory
  /-- The host agent (R30). -/
  host : HostState
  /-- ADDR_W, BASE, Backed and VARINT_EMPTY (R32). -/
  platform : Platform
  /-- The platform asserts reset (R260). -/
  resetRequest : Bool
  /-- How many draws have been taken (R14). -/
  draws : Nat
  deriving DecidableEq, Repr

/-- Why the machine stops. -/
inductive Fault where
  /-- Raised by `step` in a faulted state: R236 says the system takes no further step there. Safe: no run goes on. -/
  | stopped (record : FaultRecord)
  deriving DecidableEq, Repr

/-- Why an instruction has no meaning. -/
inductive Refusal where
  /-- An arm of `exec` with no meaning yet; no arm answers so. Safe: the run stops. -/
  | notModelled (mnemonic : String)
  deriving DecidableEq, Repr

/-- The host right after reset: no program loaded yet, nothing assigned. -/
def HostState.reset : HostState := ⟨[], 0, [], false⟩

/-- The system right after reset (R51, R260): every register unwritten, no fault, no byte of memory listed. -/
def State.reset : State where
  cmd := .unwritten
  src := .unwritten
  dst := .unwritten
  len := .unwritten
  olen := .unwritten
  status := .unwritten
  fault := none
  mem := []
  host := HostState.reset
  platform := Config.platform
  resetRequest := false
  draws := 0

end Sys2Proof.Machine
end

