-- ==== Sys2Proof/Machine/Ops.lean ====
section
/-! DEFINITION. The named operations on memory, registers, the fault record and the host's variables, which every meaning
is written over. Raising a fault and the reset that alone clears one stand here. -/

namespace Sys2Proof.Machine

/-! ### Which addresses exist (spec/20_memory.md R60, R61) -/

/-- Is the address in the region? -/
def inRegion (r : Region) (a : Nat) : Bool :=
  decide (r.base ≤ a) && decide (a < r.base + r.size)

/-- `Backed(a)` (R61). An address that is no address at all, `2 ^ ADDR_W` or above, is not backed (log entry 9). -/
def backed (p : Platform) (a : Nat) : Bool :=
  decide (a < 2 ^ p.addrW) && p.holes.all (fun h => !inRegion h a)

/-- The least address of `a .. a+k-1` that is not backed (R61, R116). -/
def firstUnbacked (p : Platform) (a k : Nat) : Option Nat :=
  (List.range' a k).find? (fun j => !backed p j)

/-- The host address of the register window's offset `off` (R42, R98). -/
def busAddress (p : Platform) (off : Nat) : Nat := p.base + off

/-! ### Memory -/

/-- What a byte that is not listed reads as. The spec makes the initial memory an argument (R51); every initial memory is
some `mem`, and this is the value of the bytes it does not list. DESIGN CHOICE, unsafe, log entry 2. -/
def unlistedByte : Byte := 0x00#8

/-- The canonical form: addresses strictly rising, no entry that an absent one would equal. -/
abbrev Memory.wf (m : Memory) : Prop :=
  m.Pairwise (fun c d => c.1 < d.1) ∧ ∀ c ∈ m, c.2 ≠ unlistedByte

/-- `MemRead(a, 1)` (R13). -/
def readByte : Memory → Nat → Byte
  | [], _ => unlistedByte
  | (b, v) :: m, a => if a = b then v else readByte m a

/-- Put `v` at address `a` in front of `m`, unless an absent entry says the same. -/
def consCell (a : Nat) (v : Byte) (m : Memory) : Memory :=
  if v = unlistedByte then m else (a, v) :: m

/-- `MemWrite(a, 1, v)` (R13). It keeps the canonical form. -/
def writeByte : Memory → Nat → Byte → Memory
  | [], a, v => consCell a v []
  | (b, w) :: m, a, v =>
    if a < b then consCell a v ((b, w) :: m)
    else if a = b then consCell a v m
    else (b, w) :: writeByte m a v

/-- Little-endian: the word whose byte k, bits 8k+7 .. 8k, is the k-th byte given (R62). -/
def wordOfBytes (b0 b1 b2 b3 : Byte) : Word32 := b3 ++ b2 ++ b1 ++ b0

/-- Little-endian: byte k of the list is bits 8k+7 .. 8k of the word (R62). -/
def bytesOfWord (w : Word32) : List Byte :=
  [w.extractLsb' 0 8, w.extractLsb' 8 8, w.extractLsb' 16 8, w.extractLsb' 24 8]

/-- `MemRead(a, 4)` (R13, R70). -/
def readWord (m : Memory) (a : Nat) : Word32 :=
  wordOfBytes (readByte m a) (readByte m (a + 1)) (readByte m (a + 2)) (readByte m (a + 3))

/-- The bytes in order at rising addresses from `a` (R63). -/
def writeBytes : Memory → Nat → List Byte → Memory
  | m, _, [] => m
  | m, a, b :: bs => writeBytes (writeByte m a b) (a + 1) bs

/-- `MemWrite(a, 4, w)`: four byte writes, little-endian (R13, R70). -/
def writeWord (m : Memory) (a : Nat) (w : Word32) : Memory :=
  writeBytes m a (bytesOfWord w)

/-- A word buffer: element i at `a + 4i` (R64). -/
def writeWords : Memory → Nat → List Word32 → Memory
  | m, _, [] => m
  | m, a, w :: ws => writeWords (writeWord m a w) (a + 4) ws

/-- `ReadInput` of a byte stream of `n` bytes (R63, R117). -/
def readBytes (m : Memory) (a n : Nat) : List Byte :=
  (List.range n).map (fun i => readByte m (a + i))

/-- `ReadInput` of a word buffer of `n` elements (R64, R117). -/
def readWords (m : Memory) (a n : Nat) : List Word32 :=
  (List.range n).map (fun i => readWord m (a + 4 * i))

/-! ### Registers (spec/10_state.md R33, R42) -/

/-- `x[r]` (R12). -/
def readReg (s : State) : RegName → RegVal
  | .cmd => s.cmd
  | .src => s.src
  | .dst => s.dst
  | .len => s.len
  | .olen => s.olen
  | .status => s.status

/-- The byte offset of a register in the window (R42). -/
def regOffset : RegName → Nat
  | .cmd => 0x00
  | .src => 0x04
  | .dst => 0x08
  | .len => 0x0C
  | .olen => 0x10
  | .status => 0x14

/-- The register a window access reaches: 32 bits wide, at one of the six offsets (R42; DEDUCED for offsets beyond the window,
log entry 20). -/
def registerAt (off width : Nat) : Option RegName :=
  if width = 32 then
    match off with
    | 0x00 => some .cmd
    | 0x04 => some .src
    | 0x08 => some .dst
    | 0x0C => some .len
    | 0x10 => some .olen
    | 0x14 => some .status
    | _ => none
  else none

/-! ### Faults and reset (spec/60_exceptions.md R236, spec/70_reset_and_hazards.md R260) -/

/-- `raise Fault(kind, info)`: it sets the fault record and changes nothing else (R118, R236). -/
def raiseFault (r : FaultRecord) (s : State) : State := { s with fault := some r }

/-- A reset: every register unwritten, no fault; memory is not touched (R51, R260, R261), nor is the host (log entry 11). -/
def applyReset (s : State) : State :=
  { s with
    cmd := .unwritten
    src := .unwritten
    dst := .unwritten
    len := .unwritten
    olen := .unwritten
    status := .unwritten
    fault := none
    resetRequest := false }

/-! ### Host variables (spec/30_encoding.md R98) -/

/-- The value of host variable `t`; a free value before the program assigns it. -/
def lookupVar : List (Nat × Word32) → Nat → Word32
  | [], t => Config.hostVarInit t
  | (u, w) :: vs, t => if t = u then w else lookupVar vs t

/-- Assign host variable `t`, keeping the list in rising order. -/
def assignVar : List (Nat × Word32) → Nat → Word32 → List (Nat × Word32)
  | [], t, w => [(t, w)]
  | (u, x) :: vs, t, w =>
    if t < u then (t, w) :: (u, x) :: vs
    else if t = u then (t, w) :: vs
    else (u, x) :: assignVar vs t w

/-- `t <- w`. -/
def setVar (t : Nat) (w : Word32) (s : State) : State :=
  { s with host := { s.host with vars := assignVar s.host.vars t w } }

/-- The value of a host operand (R98). -/
def hostValue (s : State) : HostOperand → Word32
  | .lit w => w
  | .var t => lookupVar s.host.vars t

end Sys2Proof.Machine
end

