-- ==== Sys2Proof/Machine/Flags.lean ====
section
/-! DEFINITION. The block has no flags (spec/10_state.md R46): STATUS is the only record of an outcome. Here are the status
codes (spec/30_encoding.md R96), completing a command, and the validation that decides a failing status
(spec/40_command.md R113 to R115). -/

namespace Sys2Proof.Machine

/-- The kinds of status (R230). -/
inductive Status where
  | success
  | nullPointer
  | invalidLength
  /-- "reserved, currently unused": no command completes with it (R233). -/
  | generic
  deriving DecidableEq, Repr

/-- STATUS as a word: CODE in bits 7:0, bits 31:8 zero (R40, R96). -/
def statusWord : Status → Word32
  | .success => 0x00000000#32
  | .nullPointer => 0x00000001#32
  | .invalidLength => 0x00000002#32
  | .generic => 0x00000003#32

/-- `complete(code)` (R14, R230). -/
def complete (code : Status) (s : State) : State :=
  { s with status := .written (statusWord code) }

/-- SRC or DST is the null address 0 (R68, R113). -/
def nullBad (src dst : Nat) : Bool := decide (src = 0) || decide (dst = 0)

/-- Both checks fail: either status may be reported, so a draw decides (R115). -/
def completeDrawn (s : State) : State :=
  complete (if Config.statusDraw s.draws then .nullPointer else .invalidLength) { s with draws := s.draws + 1 }

/-- `Validate`: the state a failing command ends in, or none when validation passes (R115). -/
def validate (nullBad lenBad : Bool) (s : State) : Option State :=
  if nullBad && lenBad then some (completeDrawn s)
  else if nullBad then some (complete .nullPointer s)
  else if lenBad then some (complete .invalidLength s)
  else none

end Sys2Proof.Machine
end

