-- ==== Sys2Proof/Machine/Operands.lean ====
section
/-! DEFINITION. A command's operands and the checks on the regions they name (spec/30_encoding.md R94,
spec/20_memory.md R66 to R69, spec/40_command.md R112, R116). -/

namespace Sys2Proof.Machine

/-- The three operands, each read whole and unsigned (R94). -/
structure Operands where
  src : Nat
  dst : Nat
  len : Nat
  deriving DecidableEq, Repr

/-- SRC, DST and LEN in that order; the first one that is unwritten decides the fault (R112). -/
def readOperands (s : State) : Except FaultRecord Operands :=
  match s.src with
  | .unwritten => .error (.unwrittenRegister .src)
  | .written a =>
    match s.dst with
    | .unwritten => .error (.unwrittenRegister .dst)
    | .written b =>
      match s.len with
      | .unwritten => .error (.unwrittenRegister .len)
      | .written n => .ok ⟨a.toNat, b.toNat, n.toNat⟩

/-- `CheckRegion` of `[a, a+k)`: the fault it raises, if any. The bound is computed exactly (R67, R116). -/
def checkRegion (p : Platform) (a k : Nat) : Option FaultRecord :=
  if k = 0 then none
  else if 2 ^ p.addrW < a + k then some (.addressRange a k)
  else (firstUnbacked p a k).map .busError

/-- Do `[a, a+k)` and `[b, b+m)` share a byte address? Two regions of which one is empty never do (R69). -/
def regionsOverlap (a k b m : Nat) : Bool :=
  decide (0 < k) && decide (0 < m) && decide (a < b + m) && decide (b < a + k)

end Sys2Proof.Machine
end

