-- ==== Sys2Proof/Machine/Command.lean ====
section
/-! DEFINITION. The execution common to all six commands: `Execute` of spec/40_command.md R110. A family file supplies a
`Command`, which says only what sets that command apart. -/

namespace Sys2Proof.Machine

/-- A sequence to be laid out in memory: words little-endian (R64) or a byte stream (R63). -/
inductive Buffer where
  | words (ws : List Word32)
  | bytes (bs : List Byte)
  deriving DecidableEq, Repr

/-- How many bytes the buffer takes: the size of the output region (R66). -/
def Buffer.size : Buffer → Nat
  | .words ws => 4 * ws.length
  | .bytes bs => bs.length

/-- `WriteOutput` (R117). -/
def Buffer.writeTo (m : Memory) (d : Nat) : Buffer → Memory
  | .words ws => writeWords m d ws
  | .bytes bs => writeBytes m d bs

/-- What `Compute` gives (R110): the output, the count for OLEN if the command reports one, and the draws counter after it. -/
structure Computed where
  output : Buffer
  count : Option Nat
  draws : Nat
  deriving DecidableEq, Repr

/-- What sets one command apart from the others. -/
structure Command where
  /-- Its name; its command word is the info of an Overlap fault (R241). -/
  name : Instr
  /-- `lenBad` of R114. -/
  lenBad : Platform → Nat → Bool
  /-- Does LEN = 0, once validation has passed, end the command at once (the second `if` of R110)? -/
  emptyEnds : Bool
  /-- Bytes of the input region for LEN = n (R66). -/
  inputSize : Nat → Nat
  /-- `ReadInput` and `Compute`, from memory, SRC, LEN and the draws counter (R110, R117). -/
  compute : Memory → Nat → Nat → Nat → Computed

/-- `if op is a varint command then x[OLEN] <- wrap32(m)` (R119). -/
def recordCount (count : Option Nat) (s : State) : State :=
  match count with
  | none => s
  | some m => { s with olen := .written (wrap32 m) }

/-- The output's region check, the overlap check, and the commit: the end of `Execute` (R110, R119). -/
def commit (c : Command) (o : Operands) (r : Computed) (s : State) : State :=
  match checkRegion s.platform o.dst r.output.size with
  | some f => raiseFault f s
  | none =>
    if regionsOverlap o.src (c.inputSize o.len) o.dst r.output.size then raiseFault (.overlap (encode c.name)) s
    else complete .success (recordCount r.count { s with mem := r.output.writeTo s.mem o.dst, draws := r.draws })

/-- The input's region check, then reading it, computing, and the commit (R110). -/
def transform (c : Command) (o : Operands) (s : State) : State :=
  match checkRegion s.platform o.src (c.inputSize o.len) with
  | some f => raiseFault f s
  | none => commit c o (c.compute s.mem o.src o.len s.draws) s

/-- `Execute` once the command is known: it ends in one step for every state (R110, R121). -/
def runCommand (c : Command) (s : State) : State :=
  match readOperands s with
  | .error f => raiseFault f s
  | .ok o =>
    match validate (nullBad o.src o.dst) (c.lenBad s.platform o.len) s with
    | some ended => ended
    | none =>
      if c.emptyEnds && decide (o.len = 0) then complete .success (recordCount (some 0) s)
      else transform c o s

end Sys2Proof.Machine
end

