-- ==== Sys2Proof/Machine/Delta.lean ====
section
/-! DEFINITION. The delta coder: delta_encode and delta_decode (spec/41_delta.md R140 to R144). -/

namespace Sys2Proof.Machine

/-- The differences of a sequence whose element before the first is `prev`: each exact, then wrapped (R140). -/
def differences : Word32 → List Word32 → List Word32
  | _, [] => []
  | prev, w :: ws => wrap32 (w.toInt - prev.toInt) :: differences w ws

/-- `deltaEncodeSeq`: the anchor unchanged, then the differences (R140). -/
def deltaEncodeSeq : List Word32 → List Word32
  | [] => []
  | w :: ws => w :: differences w ws

/-- The running sums from `prev`: each exact, then wrapped (R142). -/
def runningSums : Word32 → List Word32 → List Word32
  | _, [] => []
  | prev, e :: es =>
    wrap32 (prev.toInt + e.toInt) :: runningSums (wrap32 (prev.toInt + e.toInt)) es

/-- `deltaDecodeSeq`: the anchor, then the running sums from it (R142). -/
def deltaDecodeSeq : List Word32 → List Word32
  | [] => []
  | e :: es => e :: runningSums e es

/-- The minimum length of the delta commands is 2 (R114). -/
def deltaLenBad (_ : Platform) (n : Nat) : Bool := decide (n < 2)

/-- `Compute` of delta_encode (R141). -/
def computeDeltaEncode (m : Memory) (src n draws : Nat) : Computed :=
  ⟨.words (deltaEncodeSeq (readWords m src n)), none, draws⟩

/-- `Compute` of delta_decode (R143). -/
def computeDeltaDecode (m : Memory) (src n draws : Nat) : Computed :=
  ⟨.words (deltaDecodeSeq (readWords m src n)), none, draws⟩

/-- delta_encode as a command (R141). -/
def deltaEncodeCommand : Command :=
  ⟨.deltaEncode, deltaLenBad, false, fun n => 4 * n, computeDeltaEncode⟩

/-- delta_decode as a command (R143). -/
def deltaDecodeCommand : Command :=
  ⟨.deltaDecode, deltaLenBad, false, fun n => 4 * n, computeDeltaDecode⟩

/-- The meaning of delta_encode (R141). -/
def execDeltaEncode (s : State) : Host.Outcome State Fault Refusal :=
  .next (runCommand deltaEncodeCommand s)

/-- The meaning of delta_decode (R143). -/
def execDeltaDecode (s : State) : Host.Outcome State Fault Refusal :=
  .next (runCommand deltaDecodeCommand s)

end Sys2Proof.Machine
end

