-- ==== Sys2Proof/Machine/Varint.lean ====
section
/-! DEFINITION. The varint coder: varint_encode and varint_decode (spec/43_varint.md R180 to R193). -/

namespace Sys2Proof.Machine

/-- The loop of R180 on the value `v`, for at most `fuel` groups. The groups come from the value by shift and mask
(`v % 128`, `v / 128`), never from its storage (R182). Five turns are enough for any 32-bit value (R181; DEDUCED, log entry 18). -/
def varintLoop : Nat → Nat → List Byte
  | 0, _ => []
  | fuel + 1, v =>
    if v / 128 ≠ 0 then (0x80#8 ||| BitVec.ofNat 8 (v % 128)) :: varintLoop fuel (v / 128)
    else [BitVec.ofNat 8 (v % 128)]

/-- `varintEncodeValue` (R180). -/
def varintEncodeValue (w : Word32) : List Byte := varintLoop 5 w.toNat

/-- `varintEncodeSeq`: the values' encodings one after another, in input order (R183). -/
def varintEncodeSeq (ws : List Word32) : List Byte := ws.flatMap varintEncodeValue

/-- The continuation bit: set means that more bytes of this value follow (R185). -/
def continues (b : Byte) : Bool := b.getLsbD 7

/-- The split of a stream into complete group lists, `grp` being the bytes of the value begun. A value the stream does not
complete is dropped (R185, R186, R189). -/
def splitGroups : List Byte → List Byte → List (List Byte)
  | _, [] => []
  | grp, b :: bs => if continues b then splitGroups (grp ++ [b]) bs else (grp ++ [b]) :: splitGroups [] bs

/-- `Σ (g[k] & 0x7F) * 2^(7(j+k))`: the groups, the first one shifted by `7j` (R187). -/
def groupSum : Nat → List Byte → Nat
  | _, [] => 0
  | j, b :: bs => (b &&& 0x7F#8).toNat * 2 ^ (7 * j) + groupSum (j + 1) bs

/-- No group lies above bit 31: at most four groups, or five with the fifth at most 0x0F (R187). -/
def groupsFit (g : List Byte) : Bool :=
  decide (g.length ≤ 4) || (decide (g.length = 5) && decide ((g.getD 4 0#8 &&& 0x7F#8).toNat ≤ 0x0F))

/-- The values of complete group lists, with the draws counter after them: exact where the groups fit, a free value of its
own where they do not (R187, R190). -/
def groupValues : Nat → List (List Byte) → List Word32 × Nat
  | draws, [] => ([], draws)
  | draws, g :: gs =>
    if groupsFit g then
      (wrap32 (groupSum 0 g : Nat) :: (groupValues draws gs).1, (groupValues draws gs).2)
    else
      (Config.freeWord draws :: (groupValues (draws + 1) gs).1, (groupValues (draws + 1) gs).2)

/-- `varintDecodeSeq`: the decoded values (their number is the count), and the draws counter after them (R186). -/
def varintDecodeSeq (draws : Nat) (bs : List Byte) : List Word32 × Nat :=
  groupValues draws (splitGroups [] bs)

/-- LEN = 0 is too short only under VARINT_EMPTY = Reject (R114). -/
def varintLenBad (p : Platform) (n : Nat) : Bool :=
  decide (n = 0) && decide (p.varintEmpty = .reject)

/-- `Compute` of varint_encode; the count is the number of bytes (R184). -/
def computeVarintEncode (m : Memory) (src n draws : Nat) : Computed :=
  ⟨.bytes (varintEncodeSeq (readWords m src n)), some (varintEncodeSeq (readWords m src n)).length, draws⟩

/-- `Compute` of varint_decode; the count is the number of values (R188). -/
def computeVarintDecode (m : Memory) (src n draws : Nat) : Computed :=
  ⟨.words (varintDecodeSeq draws (readBytes m src n)).1,
   some (varintDecodeSeq draws (readBytes m src n)).1.length,
   (varintDecodeSeq draws (readBytes m src n)).2⟩

/-- varint_encode as a command (R184). -/
def varintEncodeCommand : Command :=
  ⟨.varintEncode, varintLenBad, true, fun n => 4 * n, computeVarintEncode⟩

/-- varint_decode as a command (R188). -/
def varintDecodeCommand : Command :=
  ⟨.varintDecode, varintLenBad, true, fun n => n, computeVarintDecode⟩

/-- The meaning of varint_encode (R184). -/
def execVarintEncode (s : State) : Host.Outcome State Fault Refusal :=
  .next (runCommand varintEncodeCommand s)

/-- The meaning of varint_decode (R188). -/
def execVarintDecode (s : State) : Host.Outcome State Fault Refusal :=
  .next (runCommand varintDecodeCommand s)

end Sys2Proof.Machine
end

