-- ==== Sys2Proof/Machine/Zigzag.lean ====
section
/-! DEFINITION. The zigzag mapper: zigzag_encode and zigzag_decode (spec/42_zigzag.md R160 to R166). -/

namespace Sys2Proof.Machine

/-- `zzEnc` in the case form of R160, on exact integers. -/
def zzEnc (w : Word32) : Word32 :=
  if w.toInt = 0 then wrap32 0
  else if 0 < w.toInt then wrap32 (2 * w.toInt)
  else wrap32 (2 * (-w.toInt) - 1)

/-- `zzDec` in the case form of R163, on exact integers. -/
def zzDec (w : Word32) : Word32 :=
  if w.toNat = 0 then wrap32 0
  else if w.toNat % 2 = 0 then wrap32 ((w.toNat : Int) / 2)
  else wrap32 (-(((w.toNat : Int) + 1) / 2))

/-- The minimum length of the zigzag commands is 1 (R114). -/
def zigzagLenBad (_ : Platform) (n : Nat) : Bool := decide (n < 1)

/-- `Compute` of zigzag_encode, element by element (R162). -/
def computeZigzagEncode (m : Memory) (src n draws : Nat) : Computed :=
  ⟨.words ((readWords m src n).map zzEnc), none, draws⟩

/-- `Compute` of zigzag_decode, element by element (R165). -/
def computeZigzagDecode (m : Memory) (src n draws : Nat) : Computed :=
  ⟨.words ((readWords m src n).map zzDec), none, draws⟩

/-- zigzag_encode as a command (R162). -/
def zigzagEncodeCommand : Command :=
  ⟨.zigzagEncode, zigzagLenBad, false, fun n => 4 * n, computeZigzagEncode⟩

/-- zigzag_decode as a command (R165). -/
def zigzagDecodeCommand : Command :=
  ⟨.zigzagDecode, zigzagLenBad, false, fun n => 4 * n, computeZigzagDecode⟩

/-- The meaning of zigzag_encode (R162). -/
def execZigzagEncode (s : State) : Host.Outcome State Fault Refusal :=
  .next (runCommand zigzagEncodeCommand s)

/-- The meaning of zigzag_decode (R165). -/
def execZigzagDecode (s : State) : Host.Outcome State Fault Refusal :=
  .next (runCommand zigzagDecodeCommand s)

end Sys2Proof.Machine
end

