-- ==== Sys2Proof/Machine/Dispatch.lean ====
section
/-! DEFINITION. One arm per command (spec/30_encoding.md R92): which meaning runs. -/

namespace Sys2Proof.Machine

/-- The effect of a command on the state whose CMD the host has just written (spec/10_state.md R44). -/
def exec (i : Instr) (s : State) : Host.Outcome State Fault Refusal :=
  match i with
  | .deltaEncode => Sys2Proof.Machine.execDeltaEncode s
  | .deltaDecode => Sys2Proof.Machine.execDeltaDecode s
  | .zigzagEncode => Sys2Proof.Machine.execZigzagEncode s
  | .zigzagDecode => Sys2Proof.Machine.execZigzagDecode s
  | .varintEncode => Sys2Proof.Machine.execVarintEncode s
  | .varintDecode => Sys2Proof.Machine.execVarintDecode s

end Sys2Proof.Machine
end

