-- ==== Sys2Proof/Machine/HostActions.lean ====
section
/-! DEFINITION. What the host's actions do (spec/10_state.md R42 to R44, spec/20_memory.md R61, spec/30_encoding.md R98),
and the step of the system they drive (spec/60_exceptions.md R236, spec/70_reset_and_hazards.md R260, R272). -/

namespace Sys2Proof.Machine

/-- The CMD write has stored `v`; now the command it names runs to its end, or the word is illegal (R37, R110, R237). -/
def issueCommand (v : Word32) (s : State) : Host.Outcome State Fault Refusal :=
  match decodeWord v with
  | .ok i => exec i s
  | .error _ => .next (raiseFault (.illegalCommand v) s)

/-- `HostWrite(off, v)` of a given width (R42, R44). -/
def hostWrite (off width : Nat) (v : Word32) (s : State) : Host.Outcome State Fault Refusal :=
  match registerAt off width with
  | none => .next (raiseFault (.registerAccess off width) s)
  | some .cmd => issueCommand v { s with cmd := .written v }
  | some .src => .next { s with src := .written v }
  | some .dst => .next { s with dst := .written v }
  | some .len => .next { s with len := .written v }
  | some .olen => .next s
  | some .status => .next s

/-- `t <- HostRead(off)` of a given width (R42, R43). -/
def hostRead (t off width : Nat) (s : State) : State :=
  match registerAt off width with
  | none => raiseFault (.registerAccess off width) s
  | some r =>
    match readReg s r with
    | .unwritten => raiseFault (.unwrittenRegister r) s
    | .written w => setVar t w s

/-- A host write of bytes to memory; one that touches an address which does not exist has no effect but the fault (R61). -/
def hostStore (a : Nat) (bs : List Byte) (s : State) : State :=
  match firstUnbacked s.platform a bs.length with
  | some j => raiseFault (.busError j) s
  | none => { s with mem := writeBytes s.mem a bs }

/-- A host read of `k` bytes from `a` that puts the word `w` into `t` (R61, R98). -/
def hostLoad (t a k : Nat) (w : Word32) (s : State) : State :=
  match firstUnbacked s.platform a k with
  | some j => raiseFault (.busError j) s
  | none => setVar t w s

/-- The host goes on to its next action, unless this one faulted: then it has not completed (R236). -/
def advance (s : State) : State :=
  match s.fault with
  | none => { s with host := { s.host with pos := s.host.pos + 1 } }
  | some _ => s

/-- `advance` after an outcome that is a state. -/
def thenAdvance : Host.Outcome State Fault Refusal → Host.Outcome State Fault Refusal
  | .next s => .next (advance s)
  | .fault f => .fault f
  | .refused r => .refused r

/-- Continue at `target` if `taken`, else at the next action (R98). -/
def branch (taken : Bool) (target : Nat) (s : State) : State :=
  { s with host := { s.host with pos := if taken then target else s.host.pos + 1 } }

/-- One host action (R98). -/
def runAction (act : HostAction) (s : State) : Host.Outcome State Fault Refusal :=
  match act with
  | .wr r v => thenAdvance (hostWrite (regOffset r) 32 (hostValue s v) s)
  | .rd t r => .next (advance (hostRead t (regOffset r) 32 s))
  | .busWrite off width v => thenAdvance (hostWrite off width (hostValue s v) s)
  | .busRead t off width => .next (advance (hostRead t off width s))
  | .sb a b => .next (advance (hostStore (hostValue s a).toNat [(hostValue s b).extractLsb' 0 8] s))
  | .sw a v => .next (advance (hostStore (hostValue s a).toNat (bytesOfWord (hostValue s v)) s))
  | .lb t a =>
    .next (advance (hostLoad t (hostValue s a).toNat 1 ((readByte s.mem (hostValue s a).toNat).setWidth 32) s))
  | .lw t a => .next (advance (hostLoad t (hostValue s a).toNat 4 (readWord s.mem (hostValue s a).toNat) s))
  | .beq t v target => .next (branch (decide (lookupVar s.host.vars t = hostValue s v)) target s)
  | .bne t v target => .next (branch (decide (lookupVar s.host.vars t ≠ hostValue s v)) target s)
  | .halt => .next { s with host := { s.host with halted := true } }

/-- What the host does when it is not stopped: its next action, or nothing when the program has ended or names none. The
block is idle then (R262; log entry 12). -/
def runHost (s : State) : Host.Outcome State Fault Refusal :=
  if s.host.halted then .next s
  else
    match s.host.program[s.host.pos]? with
    | none => .next s
    | some act => runAction act s

/-- One step of the system: the reset the platform asks for; else nothing once faulted (R236); else the host's action. -/
def systemStep (s : State) : Host.Outcome State Fault Refusal :=
  if s.resetRequest then .next (applyReset s)
  else
    match s.fault with
    | some r => .fault (.stopped r)
    | none => runHost s

end Sys2Proof.Machine
end

