-- ==== Sys2Proof/Machine/Step.lean ====
section
/-! DEFINITION. The step of the machine, and how a command word is placed where the next step takes it. -/

namespace Sys2Proof.Machine

/-- One step: everything it does is in `systemStep`. -/
def step (s : State) : Host.Outcome State Fault Refusal := systemStep s

/-- The host's program becomes the one action `wr CMD, w` and the host stands before it, so that the next step issues the
command word `w` (R90: a command is issued by a host write to CMD; log entry 10). The block itself is not touched. -/
def State.withFetchWord (s : State) (nbits w : Nat) : State :=
  { s with
    host := { s.host with
      program := [.wr .cmd (.lit (BitVec.ofNat 32 (w % 2 ^ nbits)))]
      pos := 0
      halted := false }
    resetRequest := false }

end Sys2Proof.Machine
end

