-- ==== Sys2Proof/Safety.lean ====
section
/-! DEFINITION. The terms in which claims speak of a run: when one is finished, when a command executes normally, what its
regions are, and the invariant of the system. -/

namespace Sys2Proof.Machine

/-- The run is finished: the host has executed `halt` and there is no fault (R272). -/
def Finished (s : State) : Prop := s.host.halted = true ∧ s.fault = none

/-- The next step takes the host action `act`. -/
def AtAction (s : State) (act : HostAction) : Prop :=
  s.resetRequest = false ∧ s.fault = none ∧ s.host.halted = false ∧ s.host.program[s.host.pos]? = some act

/-- The next step is a host write of `o` to the register: `wr`, or the same 32-bit write by its offset (R44, R98). -/
def AtRegisterWrite (s : State) (r : RegName) (o : HostOperand) : Prop :=
  AtAction s (.wr r o) ∨ AtAction s (.busWrite (regOffset r) 32 o)

/-- The next step is a host read of the register into `t`: `rd`, or the same 32-bit read by its offset (R43, R98). -/
def AtRegisterRead (s : State) (t : Nat) (r : RegName) : Prop :=
  AtAction s (.rd t r) ∨ AtAction s (.busRead t (regOffset r) 32)

/-- Does the action read a register? -/
def ReadsRegister : HostAction → Prop
  | .rd _ _ => True
  | .busRead _ _ _ => True
  | _ => False

/-- Does the action access memory (R98)? -/
def AccessesMemory : HostAction → Prop
  | .sb _ _ => True
  | .sw _ _ => True
  | .lb _ _ => True
  | .lw _ _ => True
  | _ => False

/-- Does the action store to memory (R98)? -/
def StoresToMemory : HostAction → Prop
  | .sb _ _ => True
  | .sw _ _ => True
  | _ => False

/-- Is the action a 32-bit write to CMD, by name or by offset (R44)? -/
def WritesCmd : HostAction → Prop
  | .wr r _ => r = .cmd
  | .busWrite off width _ => off = 0x00 ∧ width = 32
  | _ => False

/-- SRC, DST and LEN are written, and hold these words. -/
def OperandsWritten (s : State) (a b n : Word32) : Prop :=
  s.src = .written a ∧ s.dst = .written b ∧ s.len = .written n

/-- The region `[a, a+k)` passes the region check: it is empty, or it is in range and every byte of it exists (R116). -/
def Usable (p : Platform) (a k : Nat) : Prop :=
  k = 0 ∨ (a + k ≤ 2 ^ p.addrW ∧ ∀ j, a ≤ j → j < a + k → backed p j = true)

/-- The address `j` is the least one of `[a, a+k)` that does not exist (R116). -/
def LeastUnbacked (p : Platform) (a k j : Nat) : Prop :=
  a ≤ j ∧ j < a + k ∧ backed p j = false ∧ ∀ i, a ≤ i → i < j → backed p i = true

/-- The address `j` lies in `[a, a+k)`. -/
def InSpan (a k j : Nat) : Prop := a ≤ j ∧ j < a + k

/-- Two regions share no byte address (R69). -/
def Disjoint (a k b m : Nat) : Prop := ∀ j, ¬(InSpan a k j ∧ InSpan b m j)

/-- Is it one of the two commands that report a count in OLEN? -/
def isVarint : Instr → Bool
  | .deltaEncode => false
  | .deltaDecode => false
  | .zigzagEncode => false
  | .zigzagDecode => false
  | .varintEncode => true
  | .varintDecode => true

/-- `lenBad` of R114. -/
def LengthTooShort (p : Platform) (n : Nat) : Instr → Prop
  | .deltaEncode => n < 2
  | .deltaDecode => n < 2
  | .zigzagEncode => n < 1
  | .zigzagDecode => n < 1
  | .varintEncode => n = 0 ∧ p.varintEmpty = .reject
  | .varintDecode => n = 0 ∧ p.varintEmpty = .reject

/-- The least length that needs the memory: below it a command fails, or ends at once (R110, R114). -/
def workLength : Instr → Nat
  | .deltaEncode => 2
  | .deltaDecode => 2
  | .zigzagEncode => 1
  | .zigzagDecode => 1
  | .varintEncode => 1
  | .varintDecode => 1

/-- The size of the input region for LEN = n (R66). -/
def inputBytes (n : Nat) : Instr → Nat
  | .deltaEncode => 4 * n
  | .deltaDecode => 4 * n
  | .zigzagEncode => 4 * n
  | .zigzagDecode => 4 * n
  | .varintEncode => 4 * n
  | .varintDecode => n

/-- `max(1, ceil(bitlength(nat(w)) / 7))`; `Nat.size` is the bit length (R181). -/
def varintLength (w : Word32) : Nat := max 1 ((Nat.size w.toNat + 6) / 7)

/-- How many bytes of a stream end a value: those with bit 7 clear (R185, R192). -/
def endBytes (bs : List Byte) : Nat := (bs.filter (fun b => !continues b)).length

/-- The size of the output region, from the input and not from what the command computes (R66). -/
def outputBytes (m : Memory) (a n : Nat) : Instr → Nat
  | .deltaEncode => 4 * n
  | .deltaDecode => 4 * n
  | .zigzagEncode => 4 * n
  | .zigzagDecode => 4 * n
  | .varintEncode => ((readWords m a n).map varintLength).sum
  | .varintDecode => 4 * endBytes (readBytes m a n)

/-- Validation passes and the command goes on to memory: operands written, no null address, enough elements (R110, R115). -/
def Validated (i : Instr) (s : State) (a b n : Word32) : Prop :=
  OperandsWritten s a b n ∧ a ≠ 0#32 ∧ b ≠ 0#32 ∧ workLength i ≤ n.toNat

/-- The conditions under which a command writes its whole output and reports Success (R234). -/
def Ready (i : Instr) (s : State) (a b n : Word32) : Prop :=
  Validated i s a b n ∧
  Usable s.platform a.toNat (inputBytes n.toNat i) ∧
  Usable s.platform b.toNat (outputBytes s.mem a.toNat n.toNat i) ∧
  Disjoint a.toNat (inputBytes n.toNat i) b.toNat (outputBytes s.mem a.toNat n.toNat i)

/-- The state after the host has written the three operand registers (R100). -/
def withOperands (s : State) (a b n : Word32) : State :=
  { s with src := .written a, dst := .written b, len := .written n }

/-- The host after its current action has completed. -/
def nextHost (s : State) : HostState := { s.host with pos := s.host.pos + 1 }

/-- Every byte outside `[b, b+k)` reads in `m'` as in `m`. -/
def SameOutside (m m' : Memory) (b k : Nat) : Prop :=
  ∀ j, ¬InSpan b k j → readByte m' j = readByte m j

/-- A list of `k` bytes that form one complete value: every byte but the last has bit 7 set, the last has it clear (R187). -/
def CompleteGroup (g : List Byte) : Prop :=
  ∃ front last, g = front ++ [last] ∧ (∀ b ∈ front, continues b = true) ∧ continues last = false

/-- STATUS is unwritten or holds one of the codes 0, 1, 2 (R40, R123). -/
def StatusLegal (r : RegVal) : Prop :=
  r = .unwritten ∨ r = .written 0x0#32 ∨ r = .written 0x1#32 ∨ r = .written 0x2#32

/-- What the fault record says is so: its info is what R237 to R242 say it is, of this very state. -/
def FaultTruthful (s : State) : Prop :=
  match s.fault with
  | none => True
  | some (.illegalCommand v) => s.cmd = .written v ∧ ∀ i, encode i ≠ v
  | some (.unwrittenRegister r) => readReg s r = .unwritten
  | some (.addressRange a k) => 0 < k ∧ 2 ^ s.platform.addrW < a + k
  | some (.busError a) => backed s.platform a = false
  | some (.overlap v) => s.cmd = .written v ∧ ∃ i, encode i = v
  | some (.registerAccess off width) => ∀ r, ¬(off = regOffset r ∧ width = 32)

/-- The invariant of the system: parameters within R7's bounds, memory in its canonical form and listing only bytes that exist, a legal STATUS, a truthful
fault record, and the host's variables in rising order. -/
def SystemInv (s : State) : Prop :=
  s.platform.wf = true ∧ Memory.wf s.mem ∧ (∀ c ∈ s.mem, backed s.platform c.1 = true) ∧ StatusLegal s.status ∧ FaultTruthful s ∧
  s.host.vars.Pairwise (fun x y => x.1 < y.1)

end Sys2Proof.Machine
end

