-- ==== Sys2Proof/Certificates/Slice0/Obligations.lean ====
section
/-! DEFINITION. The statements for the provers, from the numbered rules of spec/. -/

open Sys2Proof Sys2Proof.Machine

/-! ### The command word -/

/-- R111: six words are commands, every other word is ILLEGAL. -/
def Obligations.DecodeAcceptsExactlySixWords : Prop :=
  decodeWord 0x00000001#32 = .ok .deltaEncode ∧ decodeWord 0x00000002#32 = .ok .deltaDecode ∧
  decodeWord 0x00000003#32 = .ok .zigzagEncode ∧ decodeWord 0x00000004#32 = .ok .zigzagDecode ∧
  decodeWord 0x00000005#32 = .ok .varintEncode ∧ decodeWord 0x00000006#32 = .ok .varintDecode ∧
  ∀ v : Word32, (v.toNat = 0 ∨ 6 < v.toNat) → ∃ r, decodeWord v = .error r

/-- R91, R92: decoding and encoding undo each other, and the table's numbering of the bits reads the same command. -/
def Obligations.DecodeAndEncodeAgree : Prop :=
  (∀ i : Instr, i.wf = true → decodeWord (encode i) = .ok i ∧ decodeTableWord 32 (encode i).toNat = some i) ∧
  ∀ v i, decodeWord v = .ok i → encode i = v

/-- R90, R44: a host write of a command word to CMD stores it and runs the command the word decodes to; the host goes on
exactly when that raised no fault. `withFetchWord` places the word where the very next step takes it. -/
def Obligations.StepRunsDecodedCommand : Prop :=
  (∀ s o i t, AtRegisterWrite s .cmd o → decodeWord (hostValue s o) = .ok i →
    exec i { s with cmd := .written (hostValue s o) } = .next t →
    (t.fault = none → step s = .next { t with host := nextHost t }) ∧ (t.fault ≠ none → step s = .next t)) ∧
  ∀ (s u : State) (w : Nat) i t, u = s.withFetchWord 32 w → s.fault = none → w < 2 ^ 32 →
    decodeWord (BitVec.ofNat 32 w) = .ok i → exec i { u with cmd := .written (BitVec.ofNat 32 w) } = .next t →
    (t.fault = none → step u = .next { t with host := nextHost t }) ∧ (t.fault ≠ none → step u = .next t)

/-- R93: which words are illegal, and that writing one stores it in CMD and faults, with no other effect. -/
def Obligations.IllegalCommandWordFaults : Prop :=
  (∀ v : Word32, (∀ i, encode i ≠ v) ↔
    (v.extractLsb' 0 8 = 0x00#8 ∨ 7 ≤ (v.extractLsb' 0 8).toNat ∨ v.extractLsb' 8 24 ≠ 0#24)) ∧
  ∀ s o, AtRegisterWrite s .cmd o → (∀ i, encode i ≠ hostValue s o) →
    step s = .next { s with cmd := .written (hostValue s o), fault := some (.illegalCommand (hostValue s o)) }

/-! ### The host's actions -/

/-- R42: the six offsets, reached by 32-bit accesses and by nothing else; in a well-formed platform every register has a
4-byte-aligned host address inside the window of 0x18 bytes. -/
def Obligations.RegisterMapHasSixOffsets : Prop :=
  regOffset .cmd = 0x00 ∧ regOffset .src = 0x04 ∧ regOffset .dst = 0x08 ∧ regOffset .len = 0x0C ∧
  regOffset .olen = 0x10 ∧ regOffset .status = 0x14 ∧
  (∀ off width r, registerAt off width = some r ↔ width = 32 ∧ off = regOffset r) ∧
  ∀ (p : Platform) r, p.wf = true →
    busAddress p (regOffset r) % 4 = 0 ∧ p.base ≤ busAddress p (regOffset r) ∧ busAddress p (regOffset r) < p.base + 0x18

/-- R44: a host write sets SRC, DST or LEN and nothing else, has no effect on OLEN and STATUS, and on CMD stores the word
before the command it names is run. -/
def Obligations.HostWriteSetsRegister : Prop :=
  ∀ s r o, AtRegisterWrite s r o →
    (r = .src → step s = .next { s with src := .written (hostValue s o), host := nextHost s }) ∧
    (r = .dst → step s = .next { s with dst := .written (hostValue s o), host := nextHost s }) ∧
    (r = .len → step s = .next { s with len := .written (hostValue s o), host := nextHost s }) ∧
    (r = .olen → step s = .next { s with host := nextHost s }) ∧
    (r = .status → step s = .next { s with host := nextHost s }) ∧
    (r = .cmd → step s = thenAdvance (issueCommand (hostValue s o) { s with cmd := .written (hostValue s o) }))

/-- R43: a host read gives the register's word to the host variable and changes nothing else; on an unwritten register it
is the fault UnwrittenRegister. -/
def Obligations.HostReadReturnsRegister : Prop :=
  ∀ s t r, AtRegisterRead s t r →
    (∀ w, readReg s r = .written w →
      step s = .next { s with host := { nextHost s with vars := assignVar s.host.vars t w } }) ∧
    (readReg s r = .unwritten → step s = .next { s with fault := some (.unwrittenRegister r) })

/-- R98: assigning a host variable changes that variable and no other. -/
def Obligations.HostVariableAssignment : Prop :=
  ∀ vs t w u, lookupVar (assignVar vs t w) u = if u = t then w else lookupVar vs u

/-- R242, R42: a window access of another width or at another offset faults RegisterAccess with offset and width, and does
nothing. That an offset past the window of 0x18 bytes faults like one inside it is the model's reading (log entry 20), and that
the width in the info is a number of bits is the model's choice (log entry 19). -/
def Obligations.BadRegisterAccessFaults : Prop :=
  ∀ s t off width o, (AtAction s (.busWrite off width o) ∨ AtAction s (.busRead t off width)) →
    ¬(width = 32 ∧ (off = 0x00 ∨ off = 0x04 ∨ off = 0x08 ∨ off = 0x0C ∨ off = 0x10 ∨ off = 0x14)) →
    step s = .next { s with fault := some (.registerAccess off width) }

/-- R62, R98: `sb` and `sw` store their bytes, little-endian, and change no other byte and nothing else. -/
def Obligations.HostStoreWritesItsBytes : Prop :=
  (∀ s a b, AtAction s (.sb a b) → Memory.wf s.mem → Usable s.platform (hostValue s a).toNat 1 →
    ∃ m, step s = .next { s with mem := m, host := nextHost s } ∧
      readByte m (hostValue s a).toNat = (hostValue s b).extractLsb' 0 8 ∧ SameOutside s.mem m (hostValue s a).toNat 1) ∧
  ∀ s a v, AtAction s (.sw a v) → Memory.wf s.mem → Usable s.platform (hostValue s a).toNat 4 →
    ∃ m, step s = .next { s with mem := m, host := nextHost s } ∧
      (∀ k < 4, readByte m ((hostValue s a).toNat + k) = (hostValue s v).extractLsb' (8 * k) 8) ∧
      SameOutside s.mem m (hostValue s a).toNat 4

/-- R62, R98: `lb` gives the byte widened with zeros, `lw` the little-endian word; neither changes anything but the host. -/
def Obligations.HostLoadReadsItsBytes : Prop :=
  (∀ s t a, AtAction s (.lb t a) → Usable s.platform (hostValue s a).toNat 1 →
    ∃ w, step s = .next { s with host := { nextHost s with vars := assignVar s.host.vars t w } } ∧
      w.toNat = (readByte s.mem (hostValue s a).toNat).toNat) ∧
  ∀ s t a, AtAction s (.lw t a) → Usable s.platform (hostValue s a).toNat 4 →
    ∃ w, step s = .next { s with host := { nextHost s with vars := assignVar s.host.vars t w } } ∧
      ∀ k < 4, w.extractLsb' (8 * k) 8 = readByte s.mem ((hostValue s a).toNat + k)

/-- R61: a host access to memory that touches an address which does not exist is BusError at the least such address, and has
no effect. That an address of 2^ADDR_W or above counts as one that does not exist is the model's reading (log entry 9). -/
def Obligations.HostAccessToMissingByteFaults : Prop :=
  ∀ s t a v j,
    ((AtAction s (.sb a v) ∨ AtAction s (.lb t a)) → LeastUnbacked s.platform (hostValue s a).toNat 1 j →
      step s = .next { s with fault := some (.busError j) }) ∧
    ((AtAction s (.sw a v) ∨ AtAction s (.lw t a)) → LeastUnbacked s.platform (hostValue s a).toNat 4 j →
      step s = .next { s with fault := some (.busError j) })

/-- R98, R272: the branches go on at their label or at the next action; `halt` finishes the run. That the
finished system then stays as it is, is the model's choice (log entry 12). -/
def Obligations.BranchesAndHalt : Prop :=
  (∀ s t v target, AtAction s (.beq t v target) →
    step s = .next { s with host := { s.host with
      pos := if lookupVar s.host.vars t = hostValue s v then target else s.host.pos + 1 } }) ∧
  (∀ s t v target, AtAction s (.bne t v target) →
    step s = .next { s with host := { s.host with
      pos := if lookupVar s.host.vars t = hostValue s v then s.host.pos + 1 else target } }) ∧
  ∀ s, AtAction s .halt → ∃ t, step s = .next t ∧ t = { s with host := { s.host with halted := true } } ∧ Finished t ∧
    step t = .next t

/-- R245: a host action other than a CMD write faults only RegisterAccess, UnwrittenRegister (a register read) or BusError (a
memory access). -/
def Obligations.OtherActionsFaultOnlyAsListed : Prop :=
  ∀ s act t f, AtAction s act → ¬WritesCmd act → step s = .next t → t.fault = some f →
    f.kind = .registerAccess ∨ (f.kind = .unwrittenRegister ∧ ReadsRegister act) ∨
      (f.kind = .busError ∧ AccessesMemory act)

/-- R74 (c), R72: STATUS and OLEN change only by a command, memory only by a command or a host store (but for a reset). -/
def Obligations.OnlyCommandsAndStoresChangeResults : Prop :=
  ∀ s t, s.resetRequest = false → step s = .next t →
    ((t.status ≠ s.status ∨ t.olen ≠ s.olen) → ∃ act, AtAction s act ∧ WritesCmd act) ∧
    (t.mem ≠ s.mem → ∃ act, AtAction s act ∧ (WritesCmd act ∨ StoresToMemory act))

/-- R272: a run becomes finished only by the host's `halt`. -/
def Obligations.RunFinishesOnlyByHalt : Prop :=
  ∀ s t, s.resetRequest = false → step s = .next t → Finished t → ¬Finished s → AtAction s .halt

/-! ### Faults and reset -/

/-- R49: no fault after reset; no step clears one but a reset; while there is one the system takes no step and the run is not
finished. -/
def Obligations.FaultStopsUntilReset : Prop :=
  State.reset.fault = none ∧
  (∀ s f, s.fault = some f → ¬Finished s ∧ (s.resetRequest = false → step s = .fault (.stopped f))) ∧
  ∀ s t, step s = .next t → s.fault ≠ none → s.resetRequest = true ∧ t.fault = none

/-- R51, R260, R261: a reset unwrites every register, clears the fault and does not touch memory; nothing else clears a fault;
the initial state is one just after a reset. -/
def Obligations.ResetUnwritesRegisters : Prop :=
  (∀ s, s.resetRequest = true → ∃ t, step s = .next t ∧ (∀ r, readReg t r = .unwritten) ∧ t.fault = none ∧ t.mem = s.mem) ∧
  (∀ s t, step s = .next t → s.fault ≠ none → t.fault = none → s.resetRequest = true) ∧
  (∀ r, readReg State.reset r = .unwritten) ∧ State.reset.fault = none

/-- The model's choice, of which the spec says nothing: a reset takes the request back and leaves the host, the parameters and
the count of draws alone (log entry 11), and the state after reset lists no byte of memory (log entry 2) and no program (log
entry 3). -/
def Obligations.ResetLeavesTheRest : Prop :=
  (∀ s t, s.resetRequest = true → step s = .next t →
    t.host = s.host ∧ t.platform = s.platform ∧ t.draws = s.draws ∧ t.resetRequest = false) ∧
  State.reset.mem = [] ∧ State.reset.host = ⟨[], 0, [], false⟩ ∧ State.reset.resetRequest = false

/-- R41: a register that is written stays written until a reset. -/
def Obligations.WrittenRegistersStayWritten : Prop :=
  ∀ s t r, s.resetRequest = false → step s = .next t → readReg s r ≠ .unwritten → readReg t r ≠ .unwritten

/-- R32: no step changes the parameters. -/
def Obligations.StepKeepsParameters : Prop := ∀ s t, step s = .next t → t.platform = s.platform

/-! ### What all six commands share -/

/-- R118, R121: every command ends in one step, either having changed nothing but the fault record, or with a status. -/
def Obligations.EveryCommandEndsInStatusOrFault : Prop :=
  ∀ i s, ∃ t, exec i s = .next t ∧
    ((∃ f, t = { s with fault := some f }) ∨
      (t.fault = s.fault ∧ (t.status = .written 0x0#32 ∨ t.status = .written 0x1#32 ∨ t.status = .written 0x2#32)))

/-- R120: no command writes CMD, SRC, DST or LEN; nor does one touch the host, the parameters or the reset input. -/
def Obligations.CommandsKeepOperandRegisters : Prop :=
  ∀ i s t, exec i s = .next t →
    t.cmd = s.cmd ∧ t.src = s.src ∧ t.dst = s.dst ∧ t.len = s.len ∧
    t.host = s.host ∧ t.platform = s.platform ∧ t.resetRequest = s.resetRequest

/-- R117, R119: a command writes no byte outside its output region; without Success it writes no byte at all and leaves OLEN. -/
def Obligations.CommandsWriteOnlyTheirOutput : Prop :=
  (∀ i s t a b n, OperandsWritten s a b n → exec i s = .next t →
    SameOutside s.mem t.mem b.toNat (outputBytes s.mem a.toNat n.toNat i)) ∧
  ∀ i s t, exec i s = .next t → (t.fault ≠ s.fault ∨ t.status ≠ .written 0x0#32) → t.mem = s.mem ∧ t.olen = s.olen

/-- R39: the delta and zigzag commands never write OLEN. -/
def Obligations.OnlyVarintWritesCount : Prop :=
  ∀ i s t, isVarint i = false → exec i s = .next t → t.olen = s.olen

/-- R123: no command completes with Generic, so STATUS is not 3 after a command where it was not 3 before. -/
def Obligations.GenericIsNeverProduced : Prop :=
  ∀ i s t, s.status ≠ .written 0x3#32 → exec i s = .next t → t.status ≠ .written 0x3#32

/-- R112: SRC, DST and LEN are read in that order, before anything else; the first unwritten one is the fault's info. -/
def Obligations.UnwrittenOperandFaultsInOrder : Prop :=
  ∀ i s,
    (s.src = .unwritten → exec i s = .next { s with fault := some (.unwrittenRegister .src) }) ∧
    (s.src ≠ .unwritten → s.dst = .unwritten → exec i s = .next { s with fault := some (.unwrittenRegister .dst) }) ∧
    (s.src ≠ .unwritten → s.dst ≠ .unwritten → s.len = .unwritten →
      exec i s = .next { s with fault := some (.unwrittenRegister .len) })

/-- R115: what a command that fails validation does, for each way to fail; it writes STATUS and nothing else of the machine.
Where both checks fail either status may come, and only the model's count of draws moves besides (log entry 6). -/
def Obligations.ValidationFailureReportsStatus : Prop :=
  ∀ i s a b n, OperandsWritten s a b n →
    ((a = 0#32 ∨ b = 0#32) → LengthTooShort s.platform n.toNat i →
      exec i s = .next { s with status := .written 0x1#32, draws := s.draws + 1 } ∨
      exec i s = .next { s with status := .written 0x2#32, draws := s.draws + 1 }) ∧
    ((a = 0#32 ∨ b = 0#32) → ¬LengthTooShort s.platform n.toNat i →
      exec i s = .next { s with status := .written 0x1#32 }) ∧
    (¬(a = 0#32 ∨ b = 0#32) → LengthTooShort s.platform n.toNat i →
      exec i s = .next { s with status := .written 0x2#32 })

/-- R114: the two outcomes of a varint command with LEN = 0. -/
def Obligations.EmptyVarintInputByParameter : Prop :=
  ∀ i s a b, isVarint i = true → OperandsWritten s a b 0#32 → a ≠ 0#32 → b ≠ 0#32 →
    (s.platform.varintEmpty = .accept →
      exec i s = .next { s with olen := .written 0#32, status := .written 0x0#32 }) ∧
    (s.platform.varintEmpty = .reject → exec i s = .next { s with status := .written 0x2#32 })

/-- R244, items 5 to 7, with R239 to R241: the memory faults of a command that passed validation, in their order. -/
def Obligations.MemoryFaultsComeInOrder : Prop :=
  ∀ i s a b n, Validated i s a b n →
    (2 ^ s.platform.addrW < a.toNat + inputBytes n.toNat i →
      exec i s = .next { s with fault := some (.addressRange a.toNat (inputBytes n.toNat i)) }) ∧
    (∀ j, a.toNat + inputBytes n.toNat i ≤ 2 ^ s.platform.addrW →
      LeastUnbacked s.platform a.toNat (inputBytes n.toNat i) j →
      exec i s = .next { s with fault := some (.busError j) }) ∧
    (Usable s.platform a.toNat (inputBytes n.toNat i) → 0 < outputBytes s.mem a.toNat n.toNat i →
      2 ^ s.platform.addrW < b.toNat + outputBytes s.mem a.toNat n.toNat i →
      exec i s = .next { s with fault := some (.addressRange b.toNat (outputBytes s.mem a.toNat n.toNat i)) }) ∧
    (∀ j, Usable s.platform a.toNat (inputBytes n.toNat i) →
      b.toNat + outputBytes s.mem a.toNat n.toNat i ≤ 2 ^ s.platform.addrW →
      LeastUnbacked s.platform b.toNat (outputBytes s.mem a.toNat n.toNat i) j →
      exec i s = .next { s with fault := some (.busError j) }) ∧
    (∀ j, Usable s.platform a.toNat (inputBytes n.toNat i) →
      Usable s.platform b.toNat (outputBytes s.mem a.toNat n.toNat i) →
      InSpan a.toNat (inputBytes n.toNat i) j → InSpan b.toNat (outputBytes s.mem a.toNat n.toNat i) j →
      exec i s = .next { s with fault := some (.overlap (encode i)) })

/-- R122: two states that agree on the operands, the parameters, the draws and the bytes of the input region have the same
outcome: the same fault, or the same status, count, draws and output bytes. -/
def Obligations.OutcomeDependsOnlyOnInput : Prop :=
  ∀ i s u a b n, Memory.wf s.mem → Memory.wf u.mem → OperandsWritten s a b n → OperandsWritten u a b n →
    s.platform = u.platform → s.draws = u.draws →
    (∀ j, InSpan a.toNat (inputBytes n.toNat i) j → readByte s.mem j = readByte u.mem j) →
    ∃ s' u', exec i s = .next s' ∧ exec i u = .next u' ∧
      ((∃ f, s' = { s with fault := some f } ∧ u' = { u with fault := some f }) ∨
        (s'.fault = s.fault ∧ u'.fault = u.fault ∧ s'.status = u'.status ∧ s'.status ≠ .unwritten ∧
          s'.draws = u'.draws ∧
          ((s'.olen = s.olen ∧ u'.olen = u.olen) ∨ (s'.olen = u'.olen ∧ s'.olen ≠ .unwritten)) ∧
          ∃ k, (∀ j, InSpan b.toNat k j → readByte s'.mem j = readByte u'.mem j) ∧
            SameOutside s.mem s'.mem b.toNat k ∧ SameOutside u.mem u'.mem b.toNat k))

/-! ### What each command writes -/

/-- R140, R141: delta_encode writes the anchor and the wrapped differences, reports Success, and changes nothing else. -/
def Obligations.DeltaEncodeWritesDifferences : Prop :=
  ∀ s a b n, Memory.wf s.mem → Ready .deltaEncode s a b n →
    ∃ m, exec .deltaEncode s = .next { s with mem := m, status := .written 0x0#32 } ∧
      readWord m b.toNat = readWord s.mem a.toNat ∧
      (∀ i, 1 ≤ i → i < n.toNat → readWord m (b.toNat + 4 * i) =
        wrap32 ((readWord s.mem (a.toNat + 4 * i)).toInt - (readWord s.mem (a.toNat + 4 * (i - 1))).toInt)) ∧
      SameOutside s.mem m b.toNat (4 * n.toNat)

/-- R142, R143: delta_decode writes the anchor and the wrapped running sums, reports Success, and changes nothing else. -/
def Obligations.DeltaDecodeWritesRunningSums : Prop :=
  ∀ s a b n, Memory.wf s.mem → Ready .deltaDecode s a b n →
    ∃ m, exec .deltaDecode s = .next { s with mem := m, status := .written 0x0#32 } ∧
      readWord m b.toNat = readWord s.mem a.toNat ∧
      (∀ i, 1 ≤ i → i < n.toNat → readWord m (b.toNat + 4 * i) =
        wrap32 ((readWord m (b.toNat + 4 * (i - 1))).toInt + (readWord s.mem (a.toNat + 4 * i)).toInt)) ∧
      SameOutside s.mem m b.toNat (4 * n.toNat)

/-- R160, R162: zigzag_encode writes the code of each element: 2a for a ≥ 0, 2|a| - 1 for a < 0. -/
def Obligations.ZigzagEncodeWritesCodes : Prop :=
  ∀ s a b n, Memory.wf s.mem → Ready .zigzagEncode s a b n →
    ∃ m, exec .zigzagEncode s = .next { s with mem := m, status := .written 0x0#32 } ∧
      (∀ i < n.toNat, ((readWord m (b.toNat + 4 * i)).toNat : Int) =
        if 0 ≤ (readWord s.mem (a.toNat + 4 * i)).toInt then 2 * (readWord s.mem (a.toNat + 4 * i)).toInt
        else 2 * (-(readWord s.mem (a.toNat + 4 * i)).toInt) - 1) ∧
      SameOutside s.mem m b.toNat (4 * n.toNat)

/-- R163, R165: zigzag_decode writes the value of each code: v/2 for even v, -((v+1)/2) for odd v. -/
def Obligations.ZigzagDecodeWritesValues : Prop :=
  ∀ s a b n, Memory.wf s.mem → Ready .zigzagDecode s a b n →
    ∃ m, exec .zigzagDecode s = .next { s with mem := m, status := .written 0x0#32 } ∧
      (∀ i < n.toNat, (readWord m (b.toNat + 4 * i)).toInt =
        if (readWord s.mem (a.toNat + 4 * i)).toNat % 2 = 0 then ((readWord s.mem (a.toNat + 4 * i)).toNat : Int) / 2
        else -((((readWord s.mem (a.toNat + 4 * i)).toNat : Int) + 1) / 2)) ∧
      SameOutside s.mem m b.toNat (4 * n.toNat)

/-- R183, R184: varint_encode writes the values' encodings one after another, puts their length in OLEN, reports Success,
and changes nothing else. The length is the sum of the values' byte counts (R216). -/
def Obligations.VarintEncodeWritesStream : Prop :=
  ∀ s a b n, s.platform.wf = true → Memory.wf s.mem → Ready .varintEncode s a b n →
    ∃ m, exec .varintEncode s = .next { s with
        mem := m, status := .written 0x0#32,
        olen := .written (BitVec.ofNat 32 (((readWords s.mem a.toNat n.toNat).map varintLength).sum)) } ∧
      ((readWords s.mem a.toNat n.toNat).map varintLength).sum < 2 ^ 32 ∧
      readBytes m b.toNat (((readWords s.mem a.toNat n.toNat).map varintLength).sum) =
        (readWords s.mem a.toNat n.toNat).flatMap varintEncodeValue ∧
      SameOutside s.mem m b.toNat (((readWords s.mem a.toNat n.toNat).map varintLength).sum)

/-- R186, R188, R192: varint_decode writes the decoded values, puts their number, which is that of the bytes with bit 7
clear, in OLEN, reports Success, and changes nothing else (but the model's count of draws). It holds for every value of the
draws. -/
def Obligations.VarintDecodeWritesValues : Prop :=
  ∀ s a b n, Memory.wf s.mem → Ready .varintDecode s a b n →
    ∃ m d, exec .varintDecode s = .next { s with
        mem := m, status := .written 0x0#32, draws := d,
        olen := .written (BitVec.ofNat 32 (endBytes (readBytes s.mem a.toNat n.toNat))) } ∧
      endBytes (readBytes s.mem a.toNat n.toNat) < 2 ^ 32 ∧
      readWords m b.toNat (endBytes (readBytes s.mem a.toNat n.toNat)) =
        (varintDecodeSeq s.draws (readBytes s.mem a.toNat n.toNat)).1 ∧
      SameOutside s.mem m b.toNat (4 * endBytes (readBytes s.mem a.toNat n.toNat))

/-! ### The coders as functions -/

/-- R140: the elements of a delta-encoded sequence; and, by the inference R140 marks as its own, that reading the operands signed
or unsigned gives the same bits. -/
def Obligations.DeltaEncodeElements : Prop :=
  (∀ w : List Word32, (deltaEncodeSeq w).length = w.length ∧
    (∀ h : 0 < w.length, (deltaEncodeSeq w)[0]? = some w[0]) ∧
    ∀ i (h : i + 1 < w.length), (deltaEncodeSeq w)[i + 1]? = some (wrap32 (w[i + 1].toInt - w[i].toInt))) ∧
  ∀ x y : Word32, wrap32 (x.toInt - y.toInt) = wrap32 ((x.toNat : Int) - y.toNat)

/-- R142: the elements of a delta-decoded sequence are the running sum. -/
def Obligations.DeltaDecodeElements : Prop :=
  ∀ e : List Word32, (deltaDecodeSeq e).length = e.length ∧
    (∀ h : 0 < e.length, (deltaDecodeSeq e)[0]? = some e[0]) ∧
    ∀ i (h : i + 1 < e.length) (prev : Word32), (deltaDecodeSeq e)[i]? = some prev →
      (deltaDecodeSeq e)[i + 1]? = some (wrap32 (prev.toInt + e[i + 1].toInt))

/-- R213, a law the spec derives: delta encoding and decoding undo each other, with every overflow. -/
def Obligations.DeltaRoundTrip : Prop :=
  ∀ x : List Word32, 2 ≤ x.length → deltaDecodeSeq (deltaEncodeSeq x) = x ∧ deltaEncodeSeq (deltaDecodeSeq x) = x

/-- R161, R164, which the spec derives from general knowledge: the case forms of the zigzag mapping are the shift-and-XOR forms,
on all words. -/
def Obligations.ZigzagBitForms : Prop :=
  ∀ w : Word32, zzEnc w = (w <<< 1) ^^^ (w.sshiftRight 31) ∧
    zzDec w = (w >>> 1) ^^^ ((w.extractLsb' 0 1).signExtend 32)

/-- R214, a law the spec derives: the zigzag mappings undo each other on every word and every sequence. -/
def Obligations.ZigzagRoundTrip : Prop :=
  (∀ w : Word32, zzDec (zzEnc w) = w ∧ zzEnc (zzDec w) = w) ∧
  ∀ ws : List Word32, (ws.map zzEnc).map zzDec = ws ∧ (ws.map zzDec).map zzEnc = ws

/-- R166, laws the spec derives: the mapping is bijective both ways and orders codes by magnitude; magnitude k > 0 has exactly the codes 2k - 1 and
2k; magnitudes up to 63 take one varint byte. -/
def Obligations.ZigzagOrdersByMagnitude : Prop :=
  Function.Bijective zzEnc ∧ Function.Bijective zzDec ∧
  (∀ a b : Word32, a.toInt.natAbs < b.toInt.natAbs → (zzEnc a).toNat < (zzEnc b).toNat) ∧
  (∀ a : Word32, (0 < a.toInt → (zzEnc a).toNat = 2 * a.toInt.natAbs) ∧
    (a.toInt < 0 → (zzEnc a).toNat = 2 * a.toInt.natAbs - 1)) ∧
  ∀ a : Word32, a.toInt.natAbs ≤ 63 → (zzEnc a).toNat < 128 ∧ (varintEncodeValue (zzEnc a)).length = 1

/-- R180: an encoding has one byte, and one more for each further group while the rest of the value is not zero; byte j holds
bits 7j+6 .. 7j of the value in its low seven bits, and its bit 7 is set exactly when it is not the last. -/
def Obligations.VarintBytesHoldGroups : Prop :=
  ∀ w : Word32, 0 < (varintEncodeValue w).length ∧
    (∀ k, 0 < k → (k < (varintEncodeValue w).length ↔ w.toNat / 2 ^ (7 * k) ≠ 0)) ∧
    ∀ j b, (varintEncodeValue w)[j]? = some b →
      b.toNat % 128 = w.toNat / 2 ^ (7 * j) % 128 ∧ (continues b = true ↔ j + 1 < (varintEncodeValue w).length)

/-- R181, R183, R216: how many bytes a value and a sequence take; and, as the spec derives, that no encoding of more than one byte
ends in 00. -/
def Obligations.VarintByteCount : Prop :=
  (∀ w : Word32, (varintEncodeValue w).length = varintLength w ∧ 1 ≤ varintLength w ∧ varintLength w ≤ 5 ∧
    (1 < varintLength w → (varintEncodeValue w).getLast? ≠ some 0x00#8)) ∧
  ∀ ws : List Word32, (varintEncodeSeq ws).length = (ws.map varintLength).sum ∧
    ws.length ≤ (varintEncodeSeq ws).length ∧ (varintEncodeSeq ws).length ≤ 5 * ws.length

/-- R187, and R191 as the spec derives it: a complete value whose groups fit decodes to the sum of its groups, which is below
2^32, shortest or not, and the bytes after it are decoded on their own (R185). -/
def Obligations.CompleteValueDecodesExactly : Prop :=
  ∀ k g rest, CompleteGroup g → (g.length ≤ 4 ∨ (g.length = 5 ∧ (g.getD 4 0#8).toNat % 128 ≤ 0x0F)) →
    ∃ v : Word32, v.toNat = g.foldr (fun b acc => b.toNat % 128 + 128 * acc) 0 ∧
      varintDecodeSeq k (g ++ rest) = (v :: (varintDecodeSeq k rest).1, (varintDecodeSeq k rest).2)

/-- R190: an overlong value still takes one place in the output and leaves the framing of the bytes after it as it is; which
word stands in its place, the statement does not say. -/
def Obligations.OverlongValueKeepsFraming : Prop :=
  ∀ k g rest, CompleteGroup g → (6 ≤ g.length ∨ (g.length = 5 ∧ 0x0F < (g.getD 4 0#8).toNat % 128)) →
    ∃ v : Word32, varintDecodeSeq k (g ++ rest) = (v :: (varintDecodeSeq (k + 1) rest).1, (varintDecodeSeq (k + 1) rest).2)

/-- R189: bytes at the end that do not complete a value are dropped. -/
def Obligations.TruncatedTailIsDropped : Prop :=
  ∀ k bs tail, (∀ b ∈ tail, continues b = true) → (∀ b, bs.getLast? = some b → continues b = false) →
    varintDecodeSeq k (bs ++ tail) = varintDecodeSeq k bs

/-- R185, and R192 as the spec derives it: the number of decoded values is the number of bytes with bit 7 clear. -/
def Obligations.DecodedCountIsEndBytes : Prop :=
  ∀ k bs, (varintDecodeSeq k bs).1.length = endBytes bs ∧ endBytes bs ≤ bs.length

/-- R215, a law the spec derives: decoding the encoding of a sequence gives it back, and takes no draw. -/
def Obligations.VarintRoundTrip : Prop :=
  ∀ k (ws : List Word32), varintDecodeSeq k (varintEncodeSeq ws) = (ws, k)

/-- R217, first part, a law the spec derives: the whole pipeline and back is the identity. -/
def Obligations.FullPipelineRoundTrip : Prop :=
  ∀ k (x : List Word32), 2 ≤ x.length →
    deltaDecodeSeq ((varintDecodeSeq k (varintEncodeSeq ((deltaEncodeSeq x).map zzEnc))).1.map zzDec) = x

/-- R217, second part, on the machine: the six commands in the order of R210 and R211, each on the output of the one before,
with the counts that OLEN reports, put the words at `a` into the buffer at `g`, every STATUS being Success. `m` is the
length of the stream. -/
def Obligations.PipelineThroughMemoryRoundTrip : Prop :=
  ∀ s (a b c d e f g n : Word32) (m : Nat), s.platform.wf = true → Memory.wf s.mem → 2 ≤ n.toNat →
    (∀ x ∈ [a, b, c, d, e, f, g], x ≠ 0#32) →
    (∀ x ∈ [a, b, c, e, f, g], Usable s.platform x.toNat (4 * n.toNat)) →
    m = (varintEncodeSeq ((deltaEncodeSeq (readWords s.mem a.toNat n.toNat)).map zzEnc)).length →
    Usable s.platform d.toNat m →
    Disjoint a.toNat (4 * n.toNat) b.toNat (4 * n.toNat) → Disjoint b.toNat (4 * n.toNat) c.toNat (4 * n.toNat) →
    Disjoint c.toNat (4 * n.toNat) d.toNat m → Disjoint d.toNat m e.toNat (4 * n.toNat) →
    Disjoint e.toNat (4 * n.toNat) f.toNat (4 * n.toNat) → Disjoint f.toNat (4 * n.toNat) g.toNat (4 * n.toNat) →
    ∃ s1 s2 s3 s4 s5 s6,
      exec .deltaEncode (withOperands s a b n) = .next s1 ∧ s1.status = .written 0x0#32 ∧
      exec .zigzagEncode (withOperands s1 b c n) = .next s2 ∧ s2.status = .written 0x0#32 ∧
      exec .varintEncode (withOperands s2 c d n) = .next s3 ∧ s3.status = .written 0x0#32 ∧
      s3.olen = .written (BitVec.ofNat 32 m) ∧
      exec .varintDecode (withOperands s3 d e (BitVec.ofNat 32 m)) = .next s4 ∧ s4.status = .written 0x0#32 ∧
      s4.olen = .written n ∧
      exec .zigzagDecode (withOperands s4 e f n) = .next s5 ∧ s5.status = .written 0x0#32 ∧
      exec .deltaDecode (withOperands s5 f g n) = .next s6 ∧ s6.status = .written 0x0#32 ∧
      readWords s6.mem g.toNat n.toNat = readWords s.mem a.toNat n.toNat

/-! ### The invariant -/

/-- From every state that meets the invariant, a step leads to one that meets it. -/
def Obligations.StepKeepsInvariant : Prop := ∀ s t, SystemInv s → step s = .next t → SystemInv t

/-- The state after reset meets the invariant. -/
def Obligations.ResetMeetsInvariant : Prop := SystemInv State.reset
end

