-- ==== Sys2Proof/Laws/Memory.lean ====
section
/-! SUPPORT. The laws of the memory operations: read after write, the frame of a write, the canonical form, and the same for
byte runs and word buffers. -/

namespace Sys2Proof.Machine

/-! ### One byte -/

theorem readByte_of_lt {m : Memory} {a : Nat} (h : ∀ c ∈ m, a < c.1) : readByte m a = unlistedByte := by
  induction m with
  | nil => rfl
  | cons c m ih =>
    obtain ⟨b, v⟩ := c
    have hb : a < b := h (b, v) (by simp)
    rw [readByte, if_neg (by omega)]
    exact ih fun c hc => h c (by simp [hc])

theorem readByte_consCell_same (a : Nat) (v : Byte) {m : Memory} (h : ∀ c ∈ m, a < c.1) :
    readByte (consCell a v m) a = v := by
  unfold consCell
  split
  · next hv => rw [readByte_of_lt h, hv]
  · simp [readByte]

theorem readByte_consCell_other {a j : Nat} (v : Byte) (m : Memory) (h : j ≠ a) :
    readByte (consCell a v m) j = readByte m j := by
  unfold consCell
  split
  · rfl
  · simp [readByte, h]

theorem readByte_writeByte_same {m : Memory} (hm : Memory.wf m) (a : Nat) (v : Byte) :
    readByte (writeByte m a v) a = v := by
  induction m with
  | nil => exact readByte_consCell_same a v (by simp)
  | cons c m ih =>
    obtain ⟨b, w⟩ := c
    have hp := List.pairwise_cons.1 hm.1
    have hm' : Memory.wf m := ⟨hp.2, fun c hc => hm.2 c (by simp [hc])⟩
    unfold writeByte
    split
    · next hlt =>
      refine readByte_consCell_same a v fun c hc => ?_
      rcases List.mem_cons.1 hc with rfl | hc
      · exact hlt
      · exact lt_trans hlt (hp.1 c hc)
    · split
      · next heq => exact readByte_consCell_same a v fun c hc => heq ▸ hp.1 c hc
      · next hne => rw [readByte, if_neg hne]; exact ih hm'

theorem readByte_writeByte_other (m : Memory) {a j : Nat} (v : Byte) (h : j ≠ a) :
    readByte (writeByte m a v) j = readByte m j := by
  induction m with
  | nil => exact readByte_consCell_other v [] h
  | cons c m ih =>
    obtain ⟨b, w⟩ := c
    unfold writeByte
    split
    · exact readByte_consCell_other v _ h
    · split
      · next heq => rw [readByte_consCell_other v m h, readByte, if_neg (heq ▸ h)]
      · simp only [readByte, ih]

/-- The addresses a write can leave listed: the one written, and those listed before. -/
theorem mem_writeByte {m : Memory} {a : Nat} {v : Byte} {c : Host.Cell} (h : c ∈ writeByte m a v) :
    (c = (a, v) ∧ v ≠ unlistedByte) ∨ c ∈ m := by
  have cons : ∀ m' : Memory, c ∈ consCell a v m' → (c = (a, v) ∧ v ≠ unlistedByte) ∨ c ∈ m' := by
    intro m' hc
    unfold consCell at hc
    split at hc
    · exact .inr hc
    · next hv =>
      rcases List.mem_cons.1 hc with rfl | hc
      · exact .inl ⟨rfl, hv⟩
      · exact .inr hc
  induction m with
  | nil => exact cons [] h
  | cons d m ih =>
    obtain ⟨b, w⟩ := d
    unfold writeByte at h
    split at h
    · exact cons _ h
    · split at h
      · exact (cons m h).imp id fun hc => List.mem_cons_of_mem _ hc
      · rcases List.mem_cons.1 h with rfl | hc
        · exact .inr (by simp)
        · exact (ih hc).imp id fun hc => List.mem_cons_of_mem _ hc

theorem wf_consCell {a : Nat} (v : Byte) {m : Memory} (hm : Memory.wf m) (h : ∀ c ∈ m, a < c.1) :
    Memory.wf (consCell a v m) := by
  unfold consCell
  split
  · exact hm
  · next hv =>
    refine ⟨List.pairwise_cons.2 ⟨h, hm.1⟩, fun c hc => ?_⟩
    rcases List.mem_cons.1 hc with rfl | hc
    · exact hv
    · exact hm.2 c hc

theorem wf_writeByte {m : Memory} (hm : Memory.wf m) (a : Nat) (v : Byte) : Memory.wf (writeByte m a v) := by
  induction m with
  | nil => exact wf_consCell v hm (by simp)
  | cons c m ih =>
    obtain ⟨b, w⟩ := c
    have hp := List.pairwise_cons.1 hm.1
    have hm' : Memory.wf m := ⟨hp.2, fun c hc => hm.2 c (by simp [hc])⟩
    unfold writeByte
    split
    · next hlt =>
      refine wf_consCell v hm fun c hc => ?_
      rcases List.mem_cons.1 hc with rfl | hc
      · exact hlt
      · exact lt_trans hlt (hp.1 c hc)
    · next hge =>
      split
      · next heq => exact wf_consCell v hm' fun c hc => heq ▸ hp.1 c hc
      · next hne =>
        refine ⟨List.pairwise_cons.2 ⟨fun c hc => ?_, (ih hm').1⟩, fun c hc => ?_⟩
        · rcases mem_writeByte hc with ⟨rfl, -⟩ | hc
          · show b < a
            omega
          · exact hp.1 c hc
        · rcases List.mem_cons.1 hc with rfl | hc
          · exact hm.2 _ (by simp)
          · exact (ih hm').2 c hc

/-! ### A run of bytes -/

@[simp] theorem writeBytes_nil (m : Memory) (a : Nat) : writeBytes m a [] = m := rfl

@[simp] theorem writeBytes_cons (m : Memory) (a : Nat) (b : Byte) (bs : List Byte) :
    writeBytes m a (b :: bs) = writeBytes (writeByte m a b) (a + 1) bs := rfl

theorem wf_writeBytes {m : Memory} (hm : Memory.wf m) (a : Nat) (bs : List Byte) :
    Memory.wf (writeBytes m a bs) := by
  induction bs generalizing m a with
  | nil => exact hm
  | cons b bs ih => exact ih (wf_writeByte hm a b) (a + 1)

theorem mem_writeBytes {m : Memory} {a : Nat} {bs : List Byte} {c : Host.Cell} (h : c ∈ writeBytes m a bs) :
    InSpan a bs.length c.1 ∨ c ∈ m := by
  induction bs generalizing m a with
  | nil => exact .inr h
  | cons b bs ih =>
    rcases ih h with h | h
    · exact .inl ⟨by have := h.1; omega, by have := h.2; simp only [List.length_cons]; omega⟩
    · exact (mem_writeByte h).imp (fun hc => by rw [hc.1]; exact ⟨le_rfl, by simp⟩) id

theorem readByte_writeBytes_outside {m : Memory} {a : Nat} {bs : List Byte} {j : Nat}
    (h : ¬InSpan a bs.length j) : readByte (writeBytes m a bs) j = readByte m j := by
  induction bs generalizing m a with
  | nil => rfl
  | cons b bs ih =>
    simp only [InSpan, List.length_cons] at h
    rw [writeBytes_cons, ih (by simp only [InSpan]; omega), readByte_writeByte_other m b (by omega)]

theorem readByte_writeBytes_inside {m : Memory} (hm : Memory.wf m) {a : Nat} {bs : List Byte} {i : Nat}
    (h : i < bs.length) : readByte (writeBytes m a bs) (a + i) = bs[i] := by
  induction bs generalizing m a i with
  | nil => simp at h
  | cons b bs ih =>
    cases i with
    | zero =>
      rw [writeBytes_cons, readByte_writeBytes_outside (by simp only [InSpan]; omega), Nat.add_zero,
        readByte_writeByte_same hm]
      rfl
    | succ i =>
      rw [writeBytes_cons, show a + (i + 1) = a + 1 + i by omega]
      exact ih (wf_writeByte hm a b) (by simpa using h)

/-! ### Words -/

@[simp] theorem bytesOfWord_length (w : Word32) : (bytesOfWord w).length = 4 := rfl

theorem wordOfBytes_bytesOfWord (w : Word32) :
    wordOfBytes (w.extractLsb' 0 8) (w.extractLsb' 8 8) (w.extractLsb' 16 8) (w.extractLsb' 24 8) = w := by
  unfold wordOfBytes
  ext i hi
  simp only [← BitVec.getLsbD_eq_getElem, BitVec.getLsbD_append, BitVec.getLsbD_extractLsb']
  split_ifs <;> rw [decide_eq_true (by omega), Bool.true_and] <;> congr 1 <;> omega

theorem readWord_congr {m m' : Memory} {a a' : Nat} (h : ∀ k < 4, readByte m (a + k) = readByte m' (a' + k)) :
    readWord m a = readWord m' a' := by
  unfold readWord
  rw [h 1 (by omega), h 2 (by omega), h 3 (by omega), ← Nat.add_zero a, h 0 (by omega), Nat.add_zero]

theorem readWord_writeWord_same {m : Memory} (hm : Memory.wf m) (a : Nat) (w : Word32) :
    readWord (writeWord m a w) a = w := by
  have h (i : Nat) (hi : i < 4) := readByte_writeBytes_inside hm (a := a) (bs := bytesOfWord w) (i := i) hi
  unfold readWord writeWord
  have h0 := h 0 (by omega)
  rw [Nat.add_zero] at h0
  rw [h0, h 1 (by omega), h 2 (by omega), h 3 (by omega)]
  exact wordOfBytes_bytesOfWord w

@[simp] theorem writeWords_nil (m : Memory) (a : Nat) : writeWords m a [] = m := rfl

@[simp] theorem writeWords_cons (m : Memory) (a : Nat) (w : Word32) (ws : List Word32) :
    writeWords m a (w :: ws) = writeWords (writeWord m a w) (a + 4) ws := rfl

theorem writeBytes_append (m : Memory) (a : Nat) (bs cs : List Byte) :
    writeBytes m a (bs ++ cs) = writeBytes (writeBytes m a bs) (a + bs.length) cs := by
  induction bs generalizing m a with
  | nil => simp
  | cons b bs ih => simp only [List.cons_append, writeBytes_cons, ih, List.length_cons, Nat.add_assoc, Nat.add_comm 1]

/-- A word buffer is written as the byte run of its words, so the laws of byte runs hold of it. -/
theorem writeWords_eq_writeBytes (m : Memory) (a : Nat) (ws : List Word32) :
    writeWords m a ws = writeBytes m a (ws.flatMap bytesOfWord) := by
  induction ws generalizing m a with
  | nil => rfl
  | cons w ws ih => rw [List.flatMap_cons, writeBytes_append, writeWords_cons, ih]; rfl

@[simp] theorem flatMap_bytesOfWord_length (ws : List Word32) : (ws.flatMap bytesOfWord).length = 4 * ws.length := by
  induction ws with
  | nil => rfl
  | cons w ws ih => simp [ih]; omega

theorem readByte_writeWords_outside {m : Memory} {a : Nat} {ws : List Word32} {j : Nat}
    (h : ¬InSpan a (4 * ws.length) j) : readByte (writeWords m a ws) j = readByte m j := by
  rw [writeWords_eq_writeBytes]
  exact readByte_writeBytes_outside (by rwa [flatMap_bytesOfWord_length])

theorem wf_writeWords {m : Memory} (hm : Memory.wf m) (a : Nat) (ws : List Word32) :
    Memory.wf (writeWords m a ws) := by
  rw [writeWords_eq_writeBytes]
  exact wf_writeBytes hm a _

theorem readWord_writeWords_inside {m : Memory} (hm : Memory.wf m) {a : Nat} {ws : List Word32} {i : Nat}
    (h : i < ws.length) : readWord (writeWords m a ws) (a + 4 * i) = ws[i] := by
  induction ws generalizing m a i with
  | nil => simp at h
  | cons w ws ih =>
    have hw : Memory.wf (writeWord m a w) := wf_writeBytes hm a _
    cases i with
    | zero =>
      have hout : readWord (writeWords (writeWord m a w) (a + 4) ws) (a + 4 * 0) = readWord (writeWord m a w) a :=
        readWord_congr fun k hk => by
          rw [Nat.mul_zero, Nat.add_zero]
          exact readByte_writeWords_outside (by simp only [InSpan]; omega)
      rw [writeWords_cons, hout, readWord_writeWord_same hm]
      rfl
    | succ i =>
      rw [writeWords_cons, show a + 4 * (i + 1) = a + 4 + 4 * i by omega]
      exact ih hw (by simpa using h)

/-! ### Reading a buffer -/

@[simp] theorem readBytes_length (m : Memory) (a n : Nat) : (readBytes m a n).length = n := by simp [readBytes]

@[simp] theorem readWords_length (m : Memory) (a n : Nat) : (readWords m a n).length = n := by simp [readWords]

@[simp] theorem readBytes_getElem (m : Memory) (a n i : Nat) (h : i < (readBytes m a n).length) :
    (readBytes m a n)[i] = readByte m (a + i) := by simp [readBytes]

@[simp] theorem readWords_getElem (m : Memory) (a n i : Nat) (h : i < (readWords m a n).length) :
    (readWords m a n)[i] = readWord m (a + 4 * i) := by simp [readWords]

theorem readBytes_congr {m m' : Memory} {a n : Nat} (h : ∀ j, InSpan a n j → readByte m j = readByte m' j) :
    readBytes m a n = readBytes m' a n :=
  List.map_congr_left fun i hi => h (a + i) ⟨by omega, by have := List.mem_range.1 hi; omega⟩

theorem readWords_congr {m m' : Memory} {a n : Nat} (h : ∀ j, InSpan a (4 * n) j → readByte m j = readByte m' j) :
    readWords m a n = readWords m' a n :=
  List.map_congr_left fun i hi => readWord_congr fun k hk =>
    h (a + 4 * i + k) ⟨by omega, by have := List.mem_range.1 hi; omega⟩

theorem readBytes_writeBytes {m : Memory} (hm : Memory.wf m) (a : Nat) (bs : List Byte) :
    readBytes (writeBytes m a bs) a bs.length = bs :=
  List.ext_getElem (by simp) fun i h _ => by
    rw [readBytes_getElem, readByte_writeBytes_inside hm]

theorem readWords_writeWords {m : Memory} (hm : Memory.wf m) (a : Nat) (ws : List Word32) :
    readWords (writeWords m a ws) a ws.length = ws :=
  List.ext_getElem (by simp) fun i h _ => by
    rw [readWords_getElem, readWord_writeWords_inside hm]

/-! ### A buffer of either layout -/

theorem readByte_writeTo_outside (m : Memory) (d : Nat) (b : Buffer) {j : Nat} (h : ¬InSpan d b.size j) :
    readByte (b.writeTo m d) j = readByte m j := by
  cases b with
  | words ws => exact readByte_writeWords_outside h
  | bytes bs => exact readByte_writeBytes_outside h

theorem wf_writeTo {m : Memory} (hm : Memory.wf m) (d : Nat) (b : Buffer) : Memory.wf (b.writeTo m d) := by
  cases b with
  | words ws => exact wf_writeWords hm d ws
  | bytes bs => exact wf_writeBytes hm d bs

theorem mem_writeTo {m : Memory} {d : Nat} {b : Buffer} {c : Host.Cell} (h : c ∈ b.writeTo m d) :
    InSpan d b.size c.1 ∨ c ∈ m := by
  cases b with
  | words ws =>
    rw [Buffer.writeTo, writeWords_eq_writeBytes] at h
    have h' := mem_writeBytes h
    rwa [flatMap_bytesOfWord_length] at h'
  | bytes bs => exact mem_writeBytes h

end Sys2Proof.Machine
end

