-- ==== Sys2Proof/Laws/State.lean ====
section
/-! SUPPORT. For each named update of State, what every field reads as after it. -/

namespace Sys2Proof.Machine

/-! ### `raiseFault`: only the fault record -/

@[simp] theorem raiseFault_cmd (r : FaultRecord) (s : State) : (raiseFault r s).cmd = s.cmd := rfl
@[simp] theorem raiseFault_src (r : FaultRecord) (s : State) : (raiseFault r s).src = s.src := rfl
@[simp] theorem raiseFault_dst (r : FaultRecord) (s : State) : (raiseFault r s).dst = s.dst := rfl
@[simp] theorem raiseFault_len (r : FaultRecord) (s : State) : (raiseFault r s).len = s.len := rfl
@[simp] theorem raiseFault_olen (r : FaultRecord) (s : State) : (raiseFault r s).olen = s.olen := rfl
@[simp] theorem raiseFault_status (r : FaultRecord) (s : State) : (raiseFault r s).status = s.status := rfl
@[simp] theorem raiseFault_fault (r : FaultRecord) (s : State) : (raiseFault r s).fault = some r := rfl
@[simp] theorem raiseFault_mem (r : FaultRecord) (s : State) : (raiseFault r s).mem = s.mem := rfl
@[simp] theorem raiseFault_host (r : FaultRecord) (s : State) : (raiseFault r s).host = s.host := rfl
@[simp] theorem raiseFault_platform (r : FaultRecord) (s : State) : (raiseFault r s).platform = s.platform := rfl
@[simp] theorem raiseFault_resetRequest (r : FaultRecord) (s : State) : (raiseFault r s).resetRequest = s.resetRequest := rfl
@[simp] theorem raiseFault_draws (r : FaultRecord) (s : State) : (raiseFault r s).draws = s.draws := rfl

/-! ### `complete`: only STATUS -/

@[simp] theorem complete_cmd (c : Status) (s : State) : (complete c s).cmd = s.cmd := rfl
@[simp] theorem complete_src (c : Status) (s : State) : (complete c s).src = s.src := rfl
@[simp] theorem complete_dst (c : Status) (s : State) : (complete c s).dst = s.dst := rfl
@[simp] theorem complete_len (c : Status) (s : State) : (complete c s).len = s.len := rfl
@[simp] theorem complete_olen (c : Status) (s : State) : (complete c s).olen = s.olen := rfl
@[simp] theorem complete_status (c : Status) (s : State) : (complete c s).status = .written (statusWord c) := rfl
@[simp] theorem complete_fault (c : Status) (s : State) : (complete c s).fault = s.fault := rfl
@[simp] theorem complete_mem (c : Status) (s : State) : (complete c s).mem = s.mem := rfl
@[simp] theorem complete_host (c : Status) (s : State) : (complete c s).host = s.host := rfl
@[simp] theorem complete_platform (c : Status) (s : State) : (complete c s).platform = s.platform := rfl
@[simp] theorem complete_resetRequest (c : Status) (s : State) : (complete c s).resetRequest = s.resetRequest := rfl
@[simp] theorem complete_draws (c : Status) (s : State) : (complete c s).draws = s.draws := rfl

/-! ### `applyReset`: the registers and the fault record -/

@[simp] theorem applyReset_cmd (s : State) : (applyReset s).cmd = .unwritten := rfl
@[simp] theorem applyReset_src (s : State) : (applyReset s).src = .unwritten := rfl
@[simp] theorem applyReset_dst (s : State) : (applyReset s).dst = .unwritten := rfl
@[simp] theorem applyReset_len (s : State) : (applyReset s).len = .unwritten := rfl
@[simp] theorem applyReset_olen (s : State) : (applyReset s).olen = .unwritten := rfl
@[simp] theorem applyReset_status (s : State) : (applyReset s).status = .unwritten := rfl
@[simp] theorem applyReset_fault (s : State) : (applyReset s).fault = none := rfl
@[simp] theorem applyReset_mem (s : State) : (applyReset s).mem = s.mem := rfl
@[simp] theorem applyReset_host (s : State) : (applyReset s).host = s.host := rfl
@[simp] theorem applyReset_platform (s : State) : (applyReset s).platform = s.platform := rfl
@[simp] theorem applyReset_resetRequest (s : State) : (applyReset s).resetRequest = false := rfl
@[simp] theorem applyReset_draws (s : State) : (applyReset s).draws = s.draws := rfl

/-! ### `setVar`: only the host's variables -/

@[simp] theorem setVar_cmd (t : Nat) (w : Word32) (s : State) : (setVar t w s).cmd = s.cmd := rfl
@[simp] theorem setVar_src (t : Nat) (w : Word32) (s : State) : (setVar t w s).src = s.src := rfl
@[simp] theorem setVar_dst (t : Nat) (w : Word32) (s : State) : (setVar t w s).dst = s.dst := rfl
@[simp] theorem setVar_len (t : Nat) (w : Word32) (s : State) : (setVar t w s).len = s.len := rfl
@[simp] theorem setVar_olen (t : Nat) (w : Word32) (s : State) : (setVar t w s).olen = s.olen := rfl
@[simp] theorem setVar_status (t : Nat) (w : Word32) (s : State) : (setVar t w s).status = s.status := rfl
@[simp] theorem setVar_fault (t : Nat) (w : Word32) (s : State) : (setVar t w s).fault = s.fault := rfl
@[simp] theorem setVar_mem (t : Nat) (w : Word32) (s : State) : (setVar t w s).mem = s.mem := rfl
@[simp] theorem setVar_host (t : Nat) (w : Word32) (s : State) : (setVar t w s).host = { s.host with vars := assignVar s.host.vars t w } := rfl
@[simp] theorem setVar_platform (t : Nat) (w : Word32) (s : State) : (setVar t w s).platform = s.platform := rfl
@[simp] theorem setVar_resetRequest (t : Nat) (w : Word32) (s : State) : (setVar t w s).resetRequest = s.resetRequest := rfl
@[simp] theorem setVar_draws (t : Nat) (w : Word32) (s : State) : (setVar t w s).draws = s.draws := rfl

/-! ### `completeDrawn`: STATUS, and one draw taken -/

@[simp] theorem completeDrawn_cmd (s : State) : (completeDrawn s).cmd = s.cmd := rfl
@[simp] theorem completeDrawn_src (s : State) : (completeDrawn s).src = s.src := rfl
@[simp] theorem completeDrawn_dst (s : State) : (completeDrawn s).dst = s.dst := rfl
@[simp] theorem completeDrawn_len (s : State) : (completeDrawn s).len = s.len := rfl
@[simp] theorem completeDrawn_olen (s : State) : (completeDrawn s).olen = s.olen := rfl
@[simp] theorem completeDrawn_status (s : State) : (completeDrawn s).status = .written (statusWord (if Config.statusDraw s.draws then .nullPointer else .invalidLength)) := rfl
@[simp] theorem completeDrawn_fault (s : State) : (completeDrawn s).fault = s.fault := rfl
@[simp] theorem completeDrawn_mem (s : State) : (completeDrawn s).mem = s.mem := rfl
@[simp] theorem completeDrawn_host (s : State) : (completeDrawn s).host = s.host := rfl
@[simp] theorem completeDrawn_platform (s : State) : (completeDrawn s).platform = s.platform := rfl
@[simp] theorem completeDrawn_resetRequest (s : State) : (completeDrawn s).resetRequest = s.resetRequest := rfl
@[simp] theorem completeDrawn_draws (s : State) : (completeDrawn s).draws = s.draws + 1 := rfl

/-! ### `recordCount_some`: only OLEN -/

@[simp] theorem recordCount_some_cmd (m : Nat) (s : State) : (recordCount (some m) s).cmd = s.cmd := rfl
@[simp] theorem recordCount_some_src (m : Nat) (s : State) : (recordCount (some m) s).src = s.src := rfl
@[simp] theorem recordCount_some_dst (m : Nat) (s : State) : (recordCount (some m) s).dst = s.dst := rfl
@[simp] theorem recordCount_some_len (m : Nat) (s : State) : (recordCount (some m) s).len = s.len := rfl
@[simp] theorem recordCount_some_olen (m : Nat) (s : State) : (recordCount (some m) s).olen = .written (wrap32 m) := rfl
@[simp] theorem recordCount_some_status (m : Nat) (s : State) : (recordCount (some m) s).status = s.status := rfl
@[simp] theorem recordCount_some_fault (m : Nat) (s : State) : (recordCount (some m) s).fault = s.fault := rfl
@[simp] theorem recordCount_some_mem (m : Nat) (s : State) : (recordCount (some m) s).mem = s.mem := rfl
@[simp] theorem recordCount_some_host (m : Nat) (s : State) : (recordCount (some m) s).host = s.host := rfl
@[simp] theorem recordCount_some_platform (m : Nat) (s : State) : (recordCount (some m) s).platform = s.platform := rfl
@[simp] theorem recordCount_some_resetRequest (m : Nat) (s : State) : (recordCount (some m) s).resetRequest = s.resetRequest := rfl
@[simp] theorem recordCount_some_draws (m : Nat) (s : State) : (recordCount (some m) s).draws = s.draws := rfl

@[simp] theorem recordCount_none (s : State) : recordCount none s = s := rfl

end Sys2Proof.Machine
end

