-- ==== Sys2Proof/Laws/Command.lean ====
section
/-! SUPPORT. What the stages of a command can do: one lemma per stage, and the inversion of a whole command, which provers
cite instead of unfolding `runCommand`. -/

namespace Sys2Proof.Machine

/-! ### Operands and validation -/

theorem readOperands_of_written {s : State} {a b n : Word32} (h : OperandsWritten s a b n) :
    readOperands s = .ok ⟨a.toNat, b.toNat, n.toNat⟩ := by
  obtain ⟨ha, hb, hn⟩ := h
  simp [readOperands, ha, hb, hn]

/-- Reading the operands either finds the three words, or names a register that is unwritten. -/
theorem readOperands_cases (s : State) :
    (∃ r, readReg s r = .unwritten ∧ readOperands s = .error (.unwrittenRegister r)) ∨
      ∃ a b n, OperandsWritten s a b n ∧ readOperands s = .ok ⟨a.toNat, b.toNat, n.toNat⟩ := by
  rcases ha : s.src with _ | a
  · exact .inl ⟨.src, ha, by simp [readOperands, ha]⟩
  rcases hb : s.dst with _ | b
  · exact .inl ⟨.dst, hb, by simp [readOperands, ha, hb]⟩
  rcases hn : s.len with _ | n
  · exact .inl ⟨.len, hn, by simp [readOperands, ha, hb, hn]⟩
  exact .inr ⟨a, b, n, ⟨ha, hb, hn⟩, readOperands_of_written ⟨ha, hb, hn⟩⟩

/-- Validation ends a command only in STATUS 1 or 2, having changed nothing else but the draws counter. -/
theorem validate_some {nb lb : Bool} {s t : State} (h : validate nb lb s = some t) :
    ∃ d, t = { s with status := .written 0x1#32, draws := d } ∨ t = { s with status := .written 0x2#32, draws := d } := by
  unfold validate completeDrawn at h
  split at h
  · obtain rfl := Option.some.inj h
    refine ⟨s.draws + 1, ?_⟩
    split
    · exact .inl rfl
    · exact .inr rfl
  · split at h
    · exact ⟨s.draws, .inl (Option.some.inj h).symm⟩
    · split at h
      · exact ⟨s.draws, .inr (Option.some.inj h).symm⟩
      · cases h

@[simp] theorem validate_none {nb lb : Bool} {s : State} : validate nb lb s = none ↔ nb = false ∧ lb = false := by
  cases nb <;> cases lb <;> simp [validate]

/-! ### Region checks -/

theorem firstUnbacked_eq_none {p : Platform} {a k : Nat} :
    firstUnbacked p a k = none ↔ ∀ j, InSpan a k j → backed p j = true := by
  simp [firstUnbacked, InSpan]

theorem firstUnbacked_eq_some {p : Platform} {a k j : Nat} :
    firstUnbacked p a k = some j ↔ LeastUnbacked p a k j := by
  simp only [firstUnbacked, LeastUnbacked, List.find?_range'_eq_some, List.mem_range'_1, Bool.not_eq_true', Bool.not_not]
  constructor
  · rintro ⟨h1, ⟨h2, h3⟩, h4⟩
    exact ⟨h2, h3, h1, h4⟩
  · rintro ⟨h1, h2, h3, h4⟩
    exact ⟨h3, ⟨h1, h2⟩, h4⟩

theorem checkRegion_eq_none {p : Platform} {a k : Nat} : checkRegion p a k = none ↔ Usable p a k := by
  unfold checkRegion Usable
  split
  · next h => simp [h]
  · next h =>
    split
    · next hr => simp [h]; omega
    · next hr =>
      rw [Option.map_eq_none_iff, firstUnbacked_eq_none]
      exact ⟨fun hb => .inr ⟨by omega, fun j h1 h2 => hb j ⟨h1, h2⟩⟩,
        fun hb j hj => (hb.resolve_left h).2 j hj.1 hj.2⟩

/-- The faults a region check can raise, each with what makes it true (R239, R240). -/
theorem checkRegion_eq_some {p : Platform} {a k : Nat} {f : FaultRecord} (h : checkRegion p a k = some f) :
    (f = .addressRange a k ∧ 0 < k ∧ 2 ^ p.addrW < a + k) ∨
      ∃ j, f = .busError j ∧ a + k ≤ 2 ^ p.addrW ∧ LeastUnbacked p a k j := by
  unfold checkRegion at h
  split at h
  · cases h
  · split at h
    · exact .inl ⟨(Option.some.inj h).symm, by omega, by assumption⟩
    · obtain ⟨j, hj, rfl⟩ := Option.map_eq_some_iff.1 h
      exact .inr ⟨j, rfl, by omega, firstUnbacked_eq_some.1 hj⟩

theorem checkRegion_of_range {p : Platform} {a k : Nat} (hk : 0 < k) (h : 2 ^ p.addrW < a + k) :
    checkRegion p a k = some (.addressRange a k) := by
  rw [checkRegion, if_neg (by omega), if_pos h]

theorem checkRegion_of_bus {p : Platform} {a k j : Nat} (h : a + k ≤ 2 ^ p.addrW) (hj : LeastUnbacked p a k j) :
    checkRegion p a k = some (.busError j) := by
  have := hj.1
  have := hj.2.1
  rw [checkRegion, if_neg (by omega), if_neg (by omega), firstUnbacked_eq_some.2 hj]
  rfl

theorem regionsOverlap_eq_false {a k b m : Nat} : regionsOverlap a k b m = false ↔ Disjoint a k b m := by
  simp only [regionsOverlap, Disjoint, InSpan, ← Bool.not_eq_true, Bool.and_eq_true, decide_eq_true_eq]
  constructor
  · intro h j hj
    exact h ⟨⟨⟨by omega, by omega⟩, by omega⟩, by omega⟩
  · rintro h ⟨⟨⟨h1, h2⟩, h3⟩, h4⟩
    exact h (max a b) (by omega)

theorem regionsOverlap_eq_true {a k b m : Nat} : regionsOverlap a k b m = true ↔ ∃ j, InSpan a k j ∧ InSpan b m j := by
  rw [← Bool.not_eq_false, regionsOverlap_eq_false]
  simp [Disjoint]

/-! ### The command of an instruction -/

/-- The command each instruction runs. -/
def commandOf : Instr → Command
  | .deltaEncode => deltaEncodeCommand
  | .deltaDecode => deltaDecodeCommand
  | .zigzagEncode => zigzagEncodeCommand
  | .zigzagDecode => zigzagDecodeCommand
  | .varintEncode => varintEncodeCommand
  | .varintDecode => varintDecodeCommand

theorem exec_eq (i : Instr) (s : State) : exec i s = .next (runCommand (commandOf i) s) := by cases i <;> rfl

@[simp] theorem commandOf_name (i : Instr) : (commandOf i).name = i := by cases i <;> rfl

@[simp] theorem commandOf_inputSize (i : Instr) (n : Nat) : (commandOf i).inputSize n = inputBytes n i := by
  cases i <;> rfl

@[simp] theorem commandOf_emptyEnds (i : Instr) : (commandOf i).emptyEnds = isVarint i := by cases i <;> rfl

@[simp] theorem commandOf_lenBad (i : Instr) (p : Platform) (n : Nat) :
    (commandOf i).lenBad p n = true ↔ LengthTooShort p n i := by
  cases i <;>
    simp [commandOf, LengthTooShort, deltaEncodeCommand, deltaDecodeCommand, zigzagEncodeCommand, zigzagDecodeCommand,
      varintEncodeCommand, varintDecodeCommand, deltaLenBad, zigzagLenBad, varintLenBad]

@[simp] theorem nullBad_eq_true (a b : Word32) : nullBad a.toNat b.toNat = true ↔ a = 0#32 ∨ b = 0#32 := by
  simp [nullBad, BitVec.toNat_eq]

/-! ### The command from its operands on -/

theorem runCommand_of_error {c : Command} {s : State} {f : FaultRecord} (h : readOperands s = .error f) :
    runCommand c s = raiseFault f s := by simp [runCommand, h]

/-- A command whose validation ends it. -/
theorem runCommand_of_validate {i : Instr} {s t : State} {a b n : Word32} (h : OperandsWritten s a b n)
    (hv : validate (nullBad a.toNat b.toNat) ((commandOf i).lenBad s.platform n.toNat) s = some t) :
    runCommand (commandOf i) s = t := by simp [runCommand, readOperands_of_written h, hv]

theorem not_tooShort_of_workLength {i : Instr} {p : Platform} {n : Nat} (h : workLength i ≤ n) : ¬LengthTooShort p n i := by
  cases i <;> simp only [workLength, LengthTooShort] at * <;> omega

/-- A validated command goes on to the memory. -/
theorem runCommand_of_validated {i : Instr} {s : State} {a b n : Word32} (h : Validated i s a b n) :
    runCommand (commandOf i) s = transform (commandOf i) ⟨a.toNat, b.toNat, n.toNat⟩ s := by
  obtain ⟨ho, ha, hb, hn⟩ := h
  have hv : validate (nullBad a.toNat b.toNat) ((commandOf i).lenBad s.platform n.toNat) s = none := by
    rw [validate_none, ← Bool.not_eq_true, ← Bool.not_eq_true, nullBad_eq_true, commandOf_lenBad]
    exact ⟨by simp [ha, hb], not_tooShort_of_workLength hn⟩
  have h0 : n.toNat ≠ 0 := by cases i <;> simp only [workLength] at hn <;> omega
  simp [runCommand, readOperands_of_written ho, hv, h0]

theorem transform_of_input_fault {c : Command} {o : Operands} {s : State} {f : FaultRecord}
    (h : checkRegion s.platform o.src (c.inputSize o.len) = some f) : transform c o s = raiseFault f s := by
  simp [transform, h]

theorem transform_of_usable {c : Command} {o : Operands} {s : State}
    (h : Usable s.platform o.src (c.inputSize o.len)) :
    transform c o s = commit c o (c.compute s.mem o.src o.len s.draws) s := by
  simp [transform, checkRegion_eq_none.2 h]

theorem commit_of_output_fault {c : Command} {o : Operands} {r : Computed} {s : State} {f : FaultRecord}
    (h : checkRegion s.platform o.dst r.output.size = some f) : commit c o r s = raiseFault f s := by
  simp [commit, h]

theorem commit_of_overlap {c : Command} {o : Operands} {r : Computed} {s : State} {j : Nat}
    (h : Usable s.platform o.dst r.output.size) (hi : InSpan o.src (c.inputSize o.len) j)
    (ho : InSpan o.dst r.output.size j) : commit c o r s = raiseFault (.overlap (encode c.name)) s := by
  simp [commit, checkRegion_eq_none.2 h, regionsOverlap_eq_true.2 ⟨j, hi, ho⟩]

theorem commit_of_disjoint {c : Command} {o : Operands} {r : Computed} {s : State}
    (h : Usable s.platform o.dst r.output.size)
    (hd : Disjoint o.src (c.inputSize o.len) o.dst r.output.size) :
    commit c o r s =
      complete .success (recordCount r.count { s with mem := r.output.writeTo s.mem o.dst, draws := r.draws }) := by
  simp [commit, checkRegion_eq_none.2 h, regionsOverlap_eq_false.2 hd]

/-- What a region check that fails says, in the terms of the invariant's fault record. -/
theorem checkRegion_truthful {p : Platform} {a k : Nat} {f : FaultRecord} (h : checkRegion p a k = some f) :
    (∃ x y, f = .addressRange x y ∧ 0 < y ∧ 2 ^ p.addrW < x + y) ∨ ∃ j, f = .busError j ∧ backed p j = false := by
  rcases checkRegion_eq_some h with ⟨rfl, h1, h2⟩ | ⟨j, rfl, -, hj⟩
  · exact .inl ⟨a, k, rfl, h1, h2⟩
  · exact .inr ⟨j, rfl, hj.2.2.1⟩

/-- The faults a command can raise, each with what makes it true. -/
inductive CommandFault (i : Instr) (s : State) : FaultRecord → Prop
  | unwritten (r : RegName) (h : readReg s r = .unwritten) : CommandFault i s (.unwrittenRegister r)
  | range (a k : Nat) (hk : 0 < k) (h : 2 ^ s.platform.addrW < a + k) : CommandFault i s (.addressRange a k)
  | bus (j : Nat) (h : backed s.platform j = false) : CommandFault i s (.busError j)
  | overlap : CommandFault i s (.overlap (encode i))

theorem commandFault_of_check {i : Instr} {s : State} {a k : Nat} {f : FaultRecord}
    (h : checkRegion s.platform a k = some f) : CommandFault i s f := by
  rcases checkRegion_truthful h with ⟨x, y, rfl, h1, h2⟩ | ⟨j, rfl, hj⟩
  · exact .range x y h1 h2
  · exact .bus j hj

/-- What a command can do, all of it: raise one fault and change nothing else; report a failing status; end at once on an
empty varint input; or write its whole output and report Success. -/
theorem runCommand_cases (i : Instr) (s : State) :
    (∃ f, CommandFault i s f ∧ runCommand (commandOf i) s = raiseFault f s) ∨
    (∃ d, runCommand (commandOf i) s = { s with status := .written 0x1#32, draws := d } ∨
      runCommand (commandOf i) s = { s with status := .written 0x2#32, draws := d }) ∨
    (isVarint i = true ∧ s.len = .written 0#32 ∧
      runCommand (commandOf i) s = { s with olen := .written 0#32, status := .written 0x0#32 }) ∨
    (∃ a b n r, OperandsWritten s a b n ∧ r = (commandOf i).compute s.mem a.toNat n.toNat s.draws ∧
      Usable s.platform a.toNat (inputBytes n.toNat i) ∧ Usable s.platform b.toNat r.output.size ∧
      Disjoint a.toNat (inputBytes n.toNat i) b.toNat r.output.size ∧
      runCommand (commandOf i) s =
        complete .success (recordCount r.count { s with mem := r.output.writeTo s.mem b.toNat, draws := r.draws })) := by
  rcases readOperands_cases s with ⟨r, hr, he⟩ | ⟨a, b, n, ho, he⟩
  · exact .inl ⟨_, .unwritten r hr, runCommand_of_error he⟩
  rcases hv : validate (nullBad a.toNat b.toNat) ((commandOf i).lenBad s.platform n.toNat) s with _ | t
  swap
  · obtain ⟨d, hd⟩ := validate_some hv
    rw [runCommand_of_validate ho hv]
    exact .inr (.inl ⟨d, hd⟩)
  have hrun : runCommand (commandOf i) s =
      if isVarint i && decide (n.toNat = 0) then complete .success (recordCount (some 0) s)
      else transform (commandOf i) ⟨a.toNat, b.toNat, n.toNat⟩ s := by simp [runCommand, he, hv]
  split at hrun
  · next h0 =>
    simp only [Bool.and_eq_true, decide_eq_true_eq] at h0
    have hn : n = 0#32 := BitVec.eq_of_toNat_eq h0.2
    exact .inr (.inr (.inl ⟨h0.1, hn ▸ ho.2.2, hrun⟩))
  rcases hc : checkRegion s.platform a.toNat ((commandOf i).inputSize n.toNat) with _ | f
  swap
  · exact .inl ⟨f, commandFault_of_check hc, hrun.trans (transform_of_input_fault hc)⟩
  have hin := checkRegion_eq_none.1 hc
  rw [transform_of_usable (o := ⟨a.toNat, b.toNat, n.toNat⟩) hin] at hrun
  rcases hc' : checkRegion s.platform b.toNat ((commandOf i).compute s.mem a.toNat n.toNat s.draws).output.size with _ | f
  swap
  · exact .inl ⟨f, commandFault_of_check hc', hrun.trans (commit_of_output_fault hc')⟩
  have hout := checkRegion_eq_none.1 hc'
  rcases hd : regionsOverlap a.toNat ((commandOf i).inputSize n.toNat) b.toNat
      ((commandOf i).compute s.mem a.toNat n.toNat s.draws).output.size with _ | _
  · have hd' := regionsOverlap_eq_false.1 hd
    rw [commit_of_disjoint (o := ⟨a.toNat, b.toNat, n.toNat⟩) hout hd'] at hrun
    rw [commandOf_inputSize] at hin hd'
    exact .inr (.inr (.inr ⟨a, b, n, _, ho, rfl, hin, hout, hd', hrun⟩))
  · obtain ⟨j, h1, h2⟩ := regionsOverlap_eq_true.1 hd
    rw [commit_of_overlap (o := ⟨a.toNat, b.toNat, n.toNat⟩) hout h1 h2, commandOf_name] at hrun
    exact .inl ⟨_, .overlap, hrun⟩

end Sys2Proof.Machine
end

