-- ==== Sys2Proof/Laws/PerInstr.lean ====
section
/-! SUPPORT. The family Encoding: for every command, that its word has RSVD = 0 and carries its OPCODE, one of 0x01 .. 0x06
(spec/30_encoding.md R91, R92). -/

namespace Sys2Proof.Laws.Encoding

/-- The fields of the command word of `i`. -/
def Statement (i : Instr) : Prop :=
  (encode i).extractLsb' 8 24 = 0#24 ∧ (encode i).extractLsb' 0 8 = opcode i ∧ 1 ≤ (opcode i).toNat ∧ (opcode i).toNat ≤ 6

theorem deltaEncode : Statement .deltaEncode := by unfold Statement; decide

theorem deltaDecode : Statement .deltaDecode := by unfold Statement; decide

theorem zigzagEncode : Statement .zigzagEncode := by unfold Statement; decide

theorem zigzagDecode : Statement .zigzagDecode := by unfold Statement; decide

theorem varintEncode : Statement .varintEncode := by unfold Statement; decide

theorem varintDecode : Statement .varintDecode := by unfold Statement; decide

end Sys2Proof.Laws.Encoding
end

