-- ==== Sys2Proof/Laws/Step.lean ====
section
/-! SUPPORT. What a step can do: the reset, staying idle, or one host action, and what each kind of action leaves alone. -/

namespace Sys2Proof.Machine

theorem step_at {s : State} {act : HostAction} (h : AtAction s act) : step s = runAction act s := by
  obtain ⟨h1, h2, h3, h4⟩ := h
  simp [step, systemStep, h1, h2, runHost, h3, h4]

theorem step_reset {s : State} (h : s.resetRequest = true) : step s = .next (applyReset s) := by
  simp [step, systemStep, h]

/-- Every next state comes from a reset, from a host with nothing to do, or from one host action. -/
theorem step_cases {s t : State} (h : step s = .next t) :
    (s.resetRequest = true ∧ t = applyReset s) ∨ (s.fault = none ∧ t = s) ∨
      ∃ act, AtAction s act ∧ runAction act s = .next t := by
  unfold step systemStep at h
  split at h
  · next hr =>
    cases h
    exact .inl ⟨hr, rfl⟩
  · next hr =>
    split at h
    · cases h
    · next hf =>
      unfold runHost at h
      split at h
      · cases h
        exact .inr (.inl ⟨hf, rfl⟩)
      · next hh =>
        split at h
        · cases h
          exact .inr (.inl ⟨hf, rfl⟩)
        · next act ha => exact .inr (.inr ⟨act, ⟨by simpa using hr, hf, by simpa using hh, ha⟩, h⟩)

theorem advance_of_no_fault {s : State} (h : s.fault = none) : advance s = { s with host := nextHost s } := by
  simp [advance, h, nextHost]

theorem advance_of_fault {s : State} (h : s.fault ≠ none) : advance s = s := by
  unfold advance
  split
  · next hn => exact absurd hn h
  · rfl

/-- `advance` moves the host's position and nothing else. -/
theorem advance_eq (s : State) : ∃ p, advance s = { s with host := { s.host with pos := p } } := by
  unfold advance
  split
  · exact ⟨_, rfl⟩
  · exact ⟨s.host.pos, rfl⟩

@[simp] theorem registerAt_regOffset (r : RegName) : registerAt (regOffset r) 32 = some r := by cases r <;> rfl

theorem firstUnbacked_of_usable {p : Platform} {a k : Nat} (h : Usable p a k) : firstUnbacked p a k = none := by
  rcases h with rfl | h
  · rfl
  · exact firstUnbacked_eq_none.2 fun j hj => h.2 j hj.1 hj.2

/-- What a host action that is no CMD write can do to the system, before the host moves on: raise a fault of its own, write
one operand register, store bytes that exist, assign a variable, or nothing. -/
inductive HostEffect (act : HostAction) (s : State) : State → Prop
  | badAccess (off width : Nat) (h : ∀ r, ¬(off = regOffset r ∧ width = 32)) :
      HostEffect act s (raiseFault (.registerAccess off width) s)
  | unwritten (r : RegName) (ha : ReadsRegister act) (h : readReg s r = .unwritten) :
      HostEffect act s (raiseFault (.unwrittenRegister r) s)
  | missing (j : Nat) (ha : AccessesMemory act) (h : backed s.platform j = false) :
      HostEffect act s (raiseFault (.busError j) s)
  | writeSrc (w : Word32) : HostEffect act s { s with src := .written w }
  | writeDst (w : Word32) : HostEffect act s { s with dst := .written w }
  | writeLen (w : Word32) : HostEffect act s { s with len := .written w }
  | store (a : Nat) (bs : List Byte) (ha : StoresToMemory act)
      (h : ∀ j, InSpan a bs.length j → backed s.platform j = true) :
      HostEffect act s { s with mem := writeBytes s.mem a bs }
  | assign (v : Nat) (w : Word32) : HostEffect act s (setVar v w s)
  | nothing : HostEffect act s s

theorem not_register_of_registerAt_none {off width : Nat} (h : registerAt off width = none) (r : RegName) :
    ¬(off = regOffset r ∧ width = 32) := by
  rintro ⟨rfl, rfl⟩
  simp at h

/-- A register write that does not reach CMD. -/
theorem hostWrite_effect {act : HostAction} {off width : Nat} {v : Word32} {s t : State}
    (hc : registerAt off width ≠ some .cmd) (h : thenAdvance (hostWrite off width v s) = .next t) :
    ∃ u, t = advance u ∧ HostEffect act s u := by
  unfold hostWrite at h
  rcases hr : registerAt off width with _ | r
  · rw [hr] at h
    cases h
    exact ⟨_, rfl, .badAccess off width (not_register_of_registerAt_none hr)⟩
  · rw [hr] at h
    cases r with
    | cmd => exact absurd hr hc
    | src => cases h; exact ⟨_, rfl, .writeSrc v⟩
    | dst => cases h; exact ⟨_, rfl, .writeDst v⟩
    | len => cases h; exact ⟨_, rfl, .writeLen v⟩
    | olen => cases h; exact ⟨_, rfl, .nothing⟩
    | status => cases h; exact ⟨_, rfl, .nothing⟩

theorem hostRead_effect {act : HostAction} (ha : ReadsRegister act) (v off width : Nat) (s : State) :
    HostEffect act s (hostRead v off width s) := by
  unfold hostRead
  split
  · next hn => exact .badAccess off width (not_register_of_registerAt_none hn)
  · next r _ =>
    split
    · next hu => exact .unwritten r ha hu
    · exact .assign _ _

theorem hostStore_effect {act : HostAction} (ha : AccessesMemory act) (hs : StoresToMemory act) (a : Nat)
    (bs : List Byte) (s : State) : HostEffect act s (hostStore a bs s) := by
  unfold hostStore
  split
  · next j hj => exact .missing j ha (firstUnbacked_eq_some.1 hj).2.2.1
  · next hn => exact .store a bs hs (firstUnbacked_eq_none.1 hn)

theorem hostLoad_effect {act : HostAction} (ha : AccessesMemory act) (v a k : Nat) (w : Word32) (s : State) :
    HostEffect act s (hostLoad v a k w s) := by
  unfold hostLoad
  split
  · next j hj => exact .missing j ha (firstUnbacked_eq_some.1 hj).2.2.1
  · exact .assign v w

theorem writesCmd_of_registerAt {off width : Nat} (v : HostOperand) (h : registerAt off width = some .cmd) :
    WritesCmd (.busWrite off width v) := by
  unfold registerAt at h
  split at h
  · next hw =>
    split at h <;> simp at h
    exact ⟨rfl, hw⟩
  · cases h

/-- Every host action but a CMD write has one of those effects, and besides moves or ends the host. -/
theorem runAction_cases {act : HostAction} {s t : State} (hc : ¬WritesCmd act) (h : runAction act s = .next t) :
    ∃ u p, HostEffect act s u ∧
      t = { u with host := { u.host with pos := p, halted := u.host.halted || decide (act = .halt) } } := by
  have moved : ∀ u, HostEffect act s u → act ≠ .halt → t = advance u → _ := fun u hu hne ht => by
    have key : ∃ u p, HostEffect act s u ∧
        t = { u with host := { u.host with pos := p, halted := u.host.halted || decide (act = .halt) } } := by
      obtain ⟨p, hp⟩ := advance_eq u
      exact ⟨u, p, hu, by rw [ht, hp]; simp [hne]⟩
    exact key
  cases act with
  | wr r v =>
    obtain ⟨u, ht, hu⟩ := hostWrite_effect (by rw [registerAt_regOffset]; simpa [WritesCmd] using hc) h
    exact moved u hu (by simp) ht
  | busWrite off width v =>
    obtain ⟨u, ht, hu⟩ := hostWrite_effect (fun hr => hc (writesCmd_of_registerAt v hr)) h
    exact moved u hu (by simp) ht
  | rd v r => cases h; exact moved _ (hostRead_effect (act := .rd v r) trivial _ _ _ _) (by simp) rfl
  | busRead v off width => cases h; exact moved _ (hostRead_effect (act := .busRead v off width) trivial _ _ _ _) (by simp) rfl
  | sb a b => cases h; exact moved _ (hostStore_effect (act := .sb a b) trivial trivial _ _ _) (by simp) rfl
  | sw a v => cases h; exact moved _ (hostStore_effect (act := .sw a v) trivial trivial _ _ _) (by simp) rfl
  | lb v a => cases h; exact moved _ (hostLoad_effect (act := .lb v a) trivial _ _ _ _ _) (by simp) rfl
  | lw v a => cases h; exact moved _ (hostLoad_effect (act := .lw v a) trivial _ _ _ _ _) (by simp) rfl
  | beq v w target => cases h; exact ⟨s, _, .nothing, by simp [branch]; rfl⟩
  | bne v w target => cases h; exact ⟨s, _, .nothing, by simp [branch]; rfl⟩
  | halt => cases h; exact ⟨s, s.host.pos, .nothing, by simp⟩

/-- What a CMD write does: it stores the word, and then either faults on an illegal word or runs the command. -/
theorem runAction_writesCmd {act : HostAction} {s t : State} (hc : WritesCmd act) (h : runAction act s = .next t) :
    ∃ v u, t = advance u ∧
      ((∃ r, decodeWord v = .error r ∧ u = raiseFault (.illegalCommand v) { s with cmd := .written v }) ∨
        ∃ i, decodeWord v = .ok i ∧ u = runCommand (commandOf i) { s with cmd := .written v }) := by
  have issue : ∀ v, thenAdvance (issueCommand v { s with cmd := .written v }) = .next t → _ := fun v ht => by
    have key : ∃ v u, t = advance u ∧
        ((∃ r, decodeWord v = .error r ∧ u = raiseFault (.illegalCommand v) { s with cmd := .written v }) ∨
          ∃ i, decodeWord v = .ok i ∧ u = runCommand (commandOf i) { s with cmd := .written v }) := by
      unfold issueCommand at ht
      rcases hd : decodeWord v with r | i
      · rw [hd] at ht
        cases ht
        exact ⟨v, _, rfl, .inl ⟨r, hd, rfl⟩⟩
      · rw [hd] at ht
        simp only [exec_eq] at ht
        cases ht
        exact ⟨v, _, rfl, .inr ⟨i, hd, rfl⟩⟩
    exact key
  cases act with
  | wr r v =>
    obtain rfl : r = .cmd := hc
    exact issue _ h
  | busWrite off width v =>
    obtain ⟨rfl, rfl⟩ := hc
    exact issue _ h
  | rd _ _ => cases hc
  | busRead _ _ _ => cases hc
  | sb _ _ => cases hc
  | sw _ _ => cases hc
  | lb _ _ => cases hc
  | lw _ _ => cases hc
  | beq _ _ _ => cases hc
  | bne _ _ _ => cases hc
  | halt => cases hc

end Sys2Proof.Machine
end

