-- ==== Sys2Proof/Machine/Pseudo.lean ====
section
/-! DEFINITION. The pseudo-instructions of the host's syntax: what they expand to (spec/30_encoding.md R99 to R102). They are
host programs, not commands of the block. An expansion that holds branches is given the number `at0` of its first action,
and its label `Lend` is the number after its last. -/

namespace Sys2Proof.Machine

/-- `OP s, d, n` (R100). -/
def expandCommand (i : Instr) (s d n : HostOperand) : List HostAction :=
  [.wr .src s, .wr .dst d, .wr .len n, .wr .cmd (.lit (encode i))]

/-- One stage of `compress`: the command, then leave for `lend` unless STATUS is 0 (R101). -/
def checkedStage (i : Instr) (s d n : HostOperand) (tl lend : Nat) : List HostAction :=
  expandCommand i s d n ++ [.rd tl .status, .bne tl (.lit 0#32) lend]

/-- `compress s, t1, t2, d, n, tl` (R101, R210). -/
def expandCompress (at0 : Nat) (s t1 t2 d n : HostOperand) (tl : Nat) : List HostAction :=
  checkedStage .deltaEncode s t1 n tl (at0 + 19) ++ checkedStage .zigzagEncode t1 t2 n tl (at0 + 19) ++
    checkedStage .varintEncode t2 d n tl (at0 + 19) ++ [.rd tl .olen]

/-- `decompress s, m, t1, t2, d, tn` (R102, R211). -/
def expandDecompress (at0 : Nat) (s m t1 t2 d : HostOperand) (tn : Nat) : List HostAction :=
  checkedStage .varintDecode s t1 m tn (at0 + 15) ++ [.rd tn .olen] ++
    expandCommand .zigzagDecode t1 t2 (.var tn) ++ expandCommand .deltaDecode t2 d (.var tn)

end Sys2Proof.Machine
end

