-- ==== Sys2Proof/Tests/Slice0.lean ====
section
/-! SUPPORT. Tests on values written out in the spec (its encodings, and the vectors of spec/95_test_vectors.md, named by their
numbers there), the smoke tests of WellFormed, and for each statement a witness that meets its hypotheses. -/

namespace Sys2Proof.Machine.Tests

open Sys2Proof Sys2Proof.Machine

/-! ### Decoding: words written out bit by bit from R91 and R92 -/

theorem test_decode_delta_encode :
    decodeTableWord 32 0b00000000000000000000000000000001 = some .deltaEncode := by decide

theorem test_decode_delta_decode :
    decodeTableWord 32 0b00000000000000000000000000000010 = some .deltaDecode := by decide

theorem test_decode_zigzag_encode :
    decodeTableWord 32 0b00000000000000000000000000000011 = some .zigzagEncode := by decide

theorem test_decode_zigzag_decode :
    decodeTableWord 32 0b00000000000000000000000000000100 = some .zigzagDecode := by decide

theorem test_decode_varint_encode :
    decodeTableWord 32 0b00000000000000000000000000000101 = some .varintEncode := by decide

theorem test_decode_varint_decode :
    decodeTableWord 32 0b00000000000000000000000000000110 = some .varintDecode := by decide

/-- CX1, CX2, CX3: OPCODE 0x00, 0x07 and 0xFF are illegal. -/
theorem test_decode_rejects_opcodes :
    decodeTableWord 32 0x00000000 = none ∧ decodeTableWord 32 0x00000007 = none ∧
      decodeTableWord 32 0x000000FF = none := by decide

/-- CX4, CX5: RSVD ≠ 0 is illegal whatever the OPCODE. -/
theorem test_decode_rejects_reserved :
    decodeTableWord 32 0x00000101 = none ∧ decodeTableWord 32 0x80000005 = none := by decide

/-- The rejection names its reason. -/
theorem test_decode_reject_names :
    decodeWord 0x00000007#32 = .error (.unknownOpcode 0x00000007#32) ∧
      decodeWord 0x00000101#32 = .error (.reservedBits 0x00000101#32) := ⟨rfl, rfl⟩

/-- Every word the encoder makes is well formed and of the opcode map. -/
theorem test_opcode_rows_disjoint :
    opcodeMap.Pairwise (fun r q => r.value ≠ q.value ∧ r.mask = 0xFFFFFFFF#32 ∧ q.mask = 0xFFFFFFFF#32) := by decide

/-! ### WellFormed refuses ill-formed terms -/

theorem test_wf_command : Instr.wf .varintDecode = true := by decide

theorem test_wf_refuses_addrW_0 : Platform.wf ⟨0, 0, [], .accept⟩ = false := by decide

theorem test_wf_refuses_addrW_33 : Platform.wf ⟨33, 0, [], .accept⟩ = false := by decide

theorem test_wf_refuses_unaligned_base : Platform.wf ⟨32, 2, [], .accept⟩ = false := by decide

theorem test_wf_refuses_lost_beq : programWf [.beq 0 (.lit 0#32) 1] = false := by decide

theorem test_wf_refuses_lost_bne : programWf [.halt, .bne 0 (.lit 0#32) 2] = false := by decide

theorem test_wf_accepts_program : programWf [.bne 0 (.lit 0#32) 1, .halt] = true := by decide

/-! ### States for tests -/

/-- Parameters with every address there and LEN = 0 accepted. -/
def plain : Platform := ⟨32, 0, [], .accept⟩

/-- A state with these operands, memory and parameters, and nothing else written. -/
def st (p : Platform) (m : Memory) (a b n : Word32) : State :=
  withOperands { State.reset with mem := m, platform := p } a b n

/-- The state whose host stands before the one action `act`. -/
def before (act : HostAction) (s : State) : State := { s with host := ⟨[act], 0, [], false⟩ }

/-- What a next state shows, if the outcome is one. -/
def shown {α : Type} (f : State → α) : Host.Outcome State Fault Refusal → Option α
  | .next s => some (f s)
  | .fault _ => none
  | .refused _ => none

/-- Memory with these words from 0x1000. -/
def words (ws : List Word32) : Memory := writeWords [] 0x1000 ws

/-- Memory with these bytes from 0x1000. -/
def stream (bs : List Byte) : Memory := writeBytes [] 0x1000 bs

/-! ### One command each, on the vectors of spec/95_test_vectors.md -/

/-- DE6. -/
theorem test_delta_encode_wraps :
    shown (fun t => readWords t.mem 0x2000 3)
      (exec .deltaEncode (st plain (words [0x80000000#32, 0x80000000#32, 0#32]) 0x1000 0x2000 3)) =
      some [0x80000000#32, 0x00000000#32, 0x80000000#32] := by decide

/-- DS2, DS7 (info: the command word). -/
theorem test_delta_encode_short_and_in_place :
    shown State.status (exec .deltaEncode (st plain [] 0x1000 0x2000 1)) = some (.written 2#32) ∧
      shown State.fault (exec .deltaEncode (st plain [] 0x1000 0x1000 2)) = some (some (.overlap 1#32)) := by decide

/-- DD5. -/
theorem test_delta_decode_wraps :
    shown (fun t => readWords t.mem 0x2000 3)
      (exec .deltaDecode (st plain (words [0#32, 0x80000000#32, 0x80000000#32]) 0x1000 0x2000 3)) =
      some [0x00000000#32, 0x80000000#32, 0x00000000#32] := by decide

/-- DS9, DS12, DS13: touching regions are no overlap; 4·LEN = 2^32 is out of range; validation comes first. -/
theorem test_delta_decode_regions :
    shown State.status (exec .deltaDecode (st plain [] 0x1000 0x1008 2)) = some (.written 0#32) ∧
      shown State.fault (exec .deltaDecode (st plain [] 0x1000 0x2000 0x40000000)) =
        some (some (.addressRange 0x1000 0x100000000)) ∧
      shown State.status (exec .deltaDecode (st plain [] 0 0x2000 0x40000000)) = some (.written 1#32) := by decide

/-- ZE1, ZE2, ZE3, ZE18, ZE19. -/
theorem test_zigzag_encode_codes :
    shown (fun t => readWords t.mem 0x2000 5)
      (exec .zigzagEncode (st plain (words [0#32, 1#32, 0xFFFFFFFF#32, 0x7FFFFFFF#32, 0x80000000#32]) 0x1000 0x2000 5)) =
      some [0#32, 2#32, 1#32, 0xFFFFFFFE#32, 0xFFFFFFFF#32] := by decide

/-- ZD4, ZD10, ZD11, ZD13, ZD14. -/
theorem test_zigzag_decode_values :
    shown (fun t => readWords t.mem 0x2000 5)
      (exec .zigzagDecode (st plain (words [3#32, 0x7FFFFFFF#32, 0x80000000#32, 0xFFFFFFFE#32, 0xFFFFFFFF#32])
        0x1000 0x2000 5)) =
      some [0xFFFFFFFE#32, 0xC0000000#32, 0x40000000#32, 0x7FFFFFFF#32, 0x80000000#32] := by decide

/-- VS2, with VE16 and VE20 after it. -/
theorem test_varint_encode_bytes :
    shown (fun t => (readBytes t.mem 0x2000 16, t.olen))
      (exec .varintEncode (st plain (words [1#32, 0x80#32, 0x4000#32, 0x12345678#32, 0xFFFFFFFF#32]) 0x1000 0x2000 5)) =
      some ([0x01#8, 0x80#8, 0x01#8, 0x80#8, 0x80#8, 0x01#8, 0xF8#8, 0xAC#8, 0xD1#8, 0x91#8, 0x01#8,
        0xFF#8, 0xFF#8, 0xFF#8, 0xFF#8, 0x0F#8], .written 16#32) := by decide

/-- VX4, VX5: overlap is judged on the bytes written; VX9: 2 bytes up to the very top. -/
theorem test_varint_encode_output_region :
    shown State.olen (exec .varintEncode (st plain (words [0x7F#32]) 0x1000 0x1004 1)) = some (.written 1#32) ∧
      shown State.fault (exec .varintEncode (st plain (words [0x7F#32]) 0x1000 0x1003 1)) =
        some (some (.overlap 5#32)) ∧
      shown State.olen (exec .varintEncode (st plain (words [0x80#32]) 0x1000 0xFFFFFFFE 1)) = some (.written 2#32) := by
  decide

/-- VD8, VD5, VD11 in one stream: 150, 2^32 - 1, a longer form of 0, and a tail that is dropped. -/
theorem test_varint_decode_values :
    shown (fun t => (readWords t.mem 0x2000 3, t.olen, t.draws))
      (exec .varintDecode (st plain (stream [0x96#8, 0x01#8, 0xFF#8, 0xFF#8, 0xFF#8, 0xFF#8, 0x0F#8, 0x80#8, 0x00#8, 0x80#8])
        0x1000 0x2000 10)) =
      some ([0x96#32, 0xFFFFFFFF#32, 0#32], .written 3#32, 0) := by decide

/-- VD15: an overlong value takes one place, and the byte after it decodes as 5. Nothing is said of the drawn word. -/
theorem test_varint_decode_overlong :
    (varintDecodeSeq 0 [0xFF#8, 0xFF#8, 0xFF#8, 0xFF#8, 0x1F#8, 0x05#8]).1[1]? = some 5#32 ∧
      (varintDecodeSeq 0 [0xFF#8, 0xFF#8, 0xFF#8, 0xFF#8, 0x1F#8, 0x05#8]).2 = 1 := ⟨rfl, rfl⟩

/-! ### One step each -/

/-- CX6, CX8: the first command after reset finds SRC unwritten; with SRC and DST written, LEN. -/
theorem test_unwritten_operand :
    shown State.fault (step (State.reset.withFetchWord 32 1)) = some (some (.unwrittenRegister .src)) ∧
      shown State.fault (exec .deltaEncode { State.reset with src := .written 0, dst := .written 0 }) =
        some (some (.unwrittenRegister .len)) := by decide

/-- CX12: the illegal word is stored in CMD, and the host's write has not completed. -/
theorem test_illegal_word_is_stored :
    shown (fun t => (t.cmd, t.fault, t.host.pos)) (step (State.reset.withFetchWord 32 0x12345678)) =
      some (.written 0x12345678#32, some (.illegalCommand 0x12345678#32), 0) := by decide

/-- CX14, CX15. -/
theorem test_bad_accesses :
    shown State.fault (step (before (.busWrite 0x04 16 (.lit 5)) State.reset)) = some (some (.registerAccess 0x04 16)) ∧
      shown State.fault (step (before (.busRead 0 0x18 32) State.reset)) = some (some (.registerAccess 0x18 32)) := by
  decide

/-- CX9, CX11. -/
theorem test_status_register :
    shown State.fault (step (before (.rd 0 .status) State.reset)) = some (some (.unwrittenRegister .status)) ∧
      shown State.status (step (before (.wr .status (.lit 5)) { State.reset with status := .written 0 })) =
        some (.written 0#32) := by decide

/-- CX18. -/
theorem test_bus_error_of_command :
    shown State.fault (exec .deltaEncode (st ⟨32, 0, [⟨0x1004, 1⟩], .accept⟩ [] 0x1000 0x2000 2)) =
      some (some (.busError 0x1004)) := by decide

/-- CX19: no byte of the word is written. -/
theorem test_bus_error_of_host :
    shown (fun t => (t.fault, t.mem))
      (step (before (.sw (.lit 0x2000) (.lit 0x11223344)) (st ⟨32, 0, [⟨0x2002, 1⟩], .accept⟩ [] 0 0 0))) =
      some (some (.busError 0x2002), []) := by decide

/-- R62: little-endian, as P3's first action shows it. -/
theorem test_store_word_bytes :
    shown (fun t => readBytes t.mem 0x1000 4) (step (before (.sw (.lit 0x1000) (.lit 0x7FFFFFFF)) (st plain [] 0 0 0))) =
      some [0xFF#8, 0xFF#8, 0xFF#8, 0x7F#8] := by decide

/-- CX16: a faulted system takes no step. -/
theorem test_no_step_after_fault :
    step { before .halt State.reset with fault := some (.busError 7) } = .fault (.stopped (.busError 7)) := rfl

/-- Writing the value an absent byte reads as leaves no entry. -/
theorem test_write_unlisted_removes : writeByte [(4, 1#8), (9, 2#8)] 4 0#8 = [(9, 2#8)] := by decide

/-- R100 and the numbers of actions in P1 and P2 (19 from `wr SRC` to `rd t0, OLEN`, 15 from `wr SRC` to `wr CMD`). -/
theorem test_pseudo_lengths :
    (expandCompress 10 (.lit 0x1000) (.lit 0x1100) (.lit 0x1200) (.lit 0x1300) (.lit 10) 0).length = 19 ∧
      (expandDecompress 14 (.lit 0x1300) (.lit 14) (.lit 0x1400) (.lit 0x1500) (.lit 0x1600) 0).length = 15 := by decide

/-- The model's choice of log entry 22: `Lend` needs an action after it. -/
theorem test_wf_label_after_last_action :
    programWf (expandCompress 0 (.lit 1) (.lit 2) (.lit 3) (.lit 4) (.lit 5) 0) = false ∧
      programWf (expandCompress 0 (.lit 1) (.lit 2) (.lit 3) (.lit 4) (.lit 5) 0 ++ [.halt]) = true := by decide

/-! ### Witnesses: states and operands that meet the hypotheses of each statement -/

/-- The host stands before its action, so the next step takes it. -/
theorem before_at (act : HostAction) {s : State} (hr : s.resetRequest = false) (hf : s.fault = none) :
    AtAction (before act s) act := ⟨hr, hf, rfl, rfl⟩

/-- A command that is Ready, whenever three checks pass. -/
theorem ready_of_checks {i : Instr} {s : State} {a b n : Word32} {k : Nat} (ho : OperandsWritten s a b n)
    (hv : a ≠ 0#32 ∧ b ≠ 0#32 ∧ workLength i ≤ n.toNat) (hk : outputBytes s.mem a.toNat n.toNat i = k)
    (h1 : checkRegion s.platform a.toNat (inputBytes n.toNat i) = none) (h2 : checkRegion s.platform b.toNat k = none)
    (h3 : regionsOverlap a.toNat (inputBytes n.toNat i) b.toNat k = false) : Ready i s a b n :=
  ⟨⟨ho, hv⟩, checkRegion_eq_none.1 h1, by rw [hk]; exact checkRegion_eq_none.1 h2,
    by rw [hk]; exact regionsOverlap_eq_false.1 h3⟩

/-- A state on which every command is Ready: two elements, buffers that touch. -/
def sample : State := st plain [] 0x1000 0x1008 2

theorem varintLength_zero : varintLength 0#32 = 1 := by simp [varintLength]

theorem witness_ready_delta_encode : Memory.wf sample.mem ∧ Ready .deltaEncode sample 0x1000 0x1008 2 :=
  ⟨by decide, ready_of_checks ⟨rfl, rfl, rfl⟩ (by decide) (k := 8) (by decide) (by decide) (by decide) (by decide)⟩

theorem witness_ready_delta_decode : Memory.wf sample.mem ∧ Ready .deltaDecode sample 0x1000 0x1008 2 :=
  ⟨by decide, ready_of_checks ⟨rfl, rfl, rfl⟩ (by decide) (k := 8) (by decide) (by decide) (by decide) (by decide)⟩

theorem witness_ready_zigzag_encode : Memory.wf sample.mem ∧ Ready .zigzagEncode sample 0x1000 0x1008 2 :=
  ⟨by decide, ready_of_checks ⟨rfl, rfl, rfl⟩ (by decide) (k := 8) (by decide) (by decide) (by decide) (by decide)⟩

theorem witness_ready_zigzag_decode : Memory.wf sample.mem ∧ Ready .zigzagDecode sample 0x1000 0x1008 2 :=
  ⟨by decide, ready_of_checks ⟨rfl, rfl, rfl⟩ (by decide) (k := 8) (by decide) (by decide) (by decide) (by decide)⟩

theorem witness_ready_varint_encode :
    sample.platform.wf = true ∧ Memory.wf sample.mem ∧ Ready .varintEncode sample 0x1000 0x1008 2 :=
  ⟨by decide, by decide, ready_of_checks ⟨rfl, rfl, rfl⟩ (by decide) (k := 2)
    (by show varintLength 0#32 + (varintLength 0#32 + 0) = 2; rw [varintLength_zero]) (by decide) (by decide) (by decide)⟩

theorem witness_ready_varint_decode : Memory.wf sample.mem ∧ Ready .varintDecode sample 0x1000 0x1008 2 :=
  ⟨by decide, ready_of_checks ⟨rfl, rfl, rfl⟩ (by decide) (k := 8) (by decide) (by decide) (by decide) (by decide)⟩

/-- The words on both sides of the six. -/
theorem witness_illegal_words : (0#32).toNat = 0 ∧ 6 < (7#32).toNat ∧ ∀ i, encode i ≠ 7#32 :=
  ⟨rfl, by decide, fun i => by cases i <;> decide⟩

theorem witness_decode_and_encode : Instr.wf .varintDecode = true ∧ decodeWord 6#32 = .ok .varintDecode := ⟨rfl, rfl⟩

/-- A command that completes (`zigzag_encode` on `sample`), and one that faults (the first after reset). -/
theorem witness_step_runs_command :
    (AtRegisterWrite (before (.wr .cmd (.lit 3#32)) sample) .cmd (.lit 3#32) ∧ decodeWord 3#32 = .ok .zigzagEncode ∧
      ∃ t, exec .zigzagEncode { before (.wr .cmd (.lit 3#32)) sample with cmd := .written 3#32 } = .next t ∧
        t.fault = none) ∧
      State.reset.fault = none ∧ decodeWord (BitVec.ofNat 32 1) = .ok .deltaEncode ∧
      ∃ t, exec .deltaEncode { State.reset.withFetchWord 32 1 with cmd := .written (BitVec.ofNat 32 1) } = .next t ∧
        t.fault ≠ none :=
  ⟨⟨.inl (before_at _ rfl rfl), rfl, _, rfl, by decide⟩, rfl, rfl, _, rfl, by decide⟩

theorem witness_illegal_command_step :
    AtRegisterWrite (before (.wr .cmd (.lit 7#32)) sample) .cmd (.lit 7#32) ∧
      ∀ i, encode i ≠ hostValue (before (.wr .cmd (.lit 7#32)) sample) (.lit 7#32) :=
  ⟨.inl (before_at _ rfl rfl), witness_illegal_words.2.2⟩

theorem witness_register_map : plain.wf = true := by decide

/-- By name and by offset. -/
theorem witness_host_write (r : RegName) : AtRegisterWrite (before (.wr r (.lit 5#32)) sample) r (.lit 5#32) ∧
    AtRegisterWrite (before (.busWrite (regOffset r) 32 (.lit 5#32)) sample) r (.lit 5#32) :=
  ⟨.inl (before_at _ rfl rfl), .inr (before_at _ rfl rfl)⟩

/-- A register that is written, and one that is not. -/
theorem witness_host_read :
    (AtRegisterRead (before (.rd 0 .src) sample) 0 .src ∧ readReg (before (.rd 0 .src) sample) .src = .written 0x1000#32) ∧
      AtRegisterRead (before (.busRead 0 0x10 32) sample) 0 .olen ∧
      readReg (before (.busRead 0 0x10 32) sample) .olen = .unwritten :=
  ⟨⟨.inl (before_at _ rfl rfl), rfl⟩, .inr (before_at _ rfl rfl), rfl⟩

/-- A write of another width, and a read just past the last offset. -/
theorem witness_bad_access :
    AtAction (before (.busWrite 0x04 16 (.lit 5#32)) sample) (.busWrite 0x04 16 (.lit 5#32)) ∧
      AtAction (before (.busRead 0 0x18 32) sample) (.busRead 0 0x18 32) ∧
      ¬(16 = 32 ∧ (0x04 = 0x00 ∨ 0x04 = 0x04 ∨ 0x04 = 0x08 ∨ 0x04 = 0x0C ∨ 0x04 = 0x10 ∨ 0x04 = 0x14)) ∧
      ¬(32 = 32 ∧ (0x18 = 0x00 ∨ 0x18 = 0x04 ∨ 0x18 = 0x08 ∨ 0x18 = 0x0C ∨ 0x18 = 0x10 ∨ 0x18 = 0x14)) :=
  ⟨before_at _ rfl rfl, before_at _ rfl rfl, by decide, by decide⟩

/-- The last byte and the last word of the address space. -/
theorem witness_host_store :
    (AtAction (before (.sb (.lit 0xFFFFFFFF#32) (.lit 5#32)) sample) (.sb (.lit 0xFFFFFFFF#32) (.lit 5#32)) ∧
      AtAction (before (.sw (.lit 0xFFFFFFFC#32) (.lit 5#32)) sample) (.sw (.lit 0xFFFFFFFC#32) (.lit 5#32))) ∧
      Memory.wf sample.mem ∧ Usable sample.platform (0xFFFFFFFF#32).toNat 1 ∧
      Usable sample.platform (0xFFFFFFFC#32).toNat 4 :=
  ⟨⟨before_at _ rfl rfl, before_at _ rfl rfl⟩, by decide, checkRegion_eq_none.1 (by decide), checkRegion_eq_none.1 (by decide)⟩

theorem witness_host_load :
    (AtAction (before (.lb 0 (.lit 0xFFFFFFFF#32)) sample) (.lb 0 (.lit 0xFFFFFFFF#32)) ∧
      AtAction (before (.lw 0 (.lit 0xFFFFFFFC#32)) sample) (.lw 0 (.lit 0xFFFFFFFC#32))) ∧
      Usable sample.platform (0xFFFFFFFF#32).toNat 1 ∧ Usable sample.platform (0xFFFFFFFC#32).toNat 4 :=
  ⟨⟨before_at _ rfl rfl, before_at _ rfl rfl⟩, checkRegion_eq_none.1 (by decide), checkRegion_eq_none.1 (by decide)⟩

/-- One byte missing in the middle of a word, as in CX19; and the byte after the top of the address space. -/
theorem witness_missing_byte :
    AtAction (before (.sw (.lit 0x2000#32) (.lit 5#32)) sample) (.sw (.lit 0x2000#32) (.lit 5#32)) ∧
      AtAction (before (.lw 0 (.lit 0x2000#32)) sample) (.lw 0 (.lit 0x2000#32)) ∧
      AtAction (before (.sb (.lit 0x2002#32) (.lit 5#32)) sample) (.sb (.lit 0x2002#32) (.lit 5#32)) ∧
      AtAction (before (.lb 0 (.lit 0x2002#32)) sample) (.lb 0 (.lit 0x2002#32)) ∧
      LeastUnbacked ⟨32, 0, [⟨0x2002, 1⟩], .accept⟩ (0x2000#32).toNat 4 0x2002 ∧
      LeastUnbacked ⟨32, 0, [⟨0x2002, 1⟩], .accept⟩ (0x2002#32).toNat 1 0x2002 ∧
      LeastUnbacked plain (0xFFFFFFFF#32).toNat 4 0x100000000 :=
  ⟨before_at _ rfl rfl, before_at _ rfl rfl, before_at _ rfl rfl, before_at _ rfl rfl,
    firstUnbacked_eq_some.1 (by decide), firstUnbacked_eq_some.1 (by decide), firstUnbacked_eq_some.1 (by decide)⟩

theorem witness_branches_and_halt :
    AtAction (before (.beq 0 (.lit 5#32) 7) sample) (.beq 0 (.lit 5#32) 7) ∧
      AtAction (before (.bne 0 (.lit 5#32) 7) sample) (.bne 0 (.lit 5#32) 7) ∧ AtAction (before .halt sample) .halt :=
  ⟨before_at _ rfl rfl, before_at _ rfl rfl, before_at _ rfl rfl⟩

/-- The three faults a host action that is no CMD write can raise, each raised. -/
theorem witness_other_actions_fault :
    (AtAction (before (.busRead 0 0x18 32) sample) (.busRead 0 0x18 32) ∧ ¬WritesCmd (.busRead 0 0x18 32) ∧
      shown State.fault (step (before (.busRead 0 0x18 32) sample)) = some (some (.registerAccess 0x18 32))) ∧
      (AtAction (before (.rd 0 .olen) sample) (.rd 0 .olen) ∧ ¬WritesCmd (.rd 0 .olen) ∧
        shown State.fault (step (before (.rd 0 .olen) sample)) = some (some (.unwrittenRegister .olen))) ∧
      AtAction (before (.lw 0 (.lit 0xFFFFFFFF#32)) sample) (.lw 0 (.lit 0xFFFFFFFF#32)) ∧
      ¬WritesCmd (.lw 0 (.lit 0xFFFFFFFF#32)) ∧
      shown State.fault (step (before (.lw 0 (.lit 0xFFFFFFFF#32)) sample)) = some (some (.busError 0x100000000)) :=
  ⟨⟨before_at _ rfl rfl, id, by decide⟩, ⟨before_at _ rfl rfl, id, by decide⟩, before_at _ rfl rfl, id, by decide⟩

/-- STATUS changes by a command, memory by a host store. -/
theorem witness_results_change :
    (before (.wr .cmd (.lit 3#32)) sample).resetRequest = false ∧
      shown State.status (step (before (.wr .cmd (.lit 3#32)) sample)) = some (.written 0#32) ∧
      sample.status = .unwritten ∧
      shown State.mem (step (before (.sb (.lit 7#32) (.lit 5#32)) sample)) = some [(7, 5#8)] ∧ sample.mem = [] := by decide

theorem witness_run_finishes : (before .halt sample).resetRequest = false ∧
    ∃ t, step (before .halt sample) = .next t ∧ Finished t ∧ ¬Finished (before .halt sample) :=
  ⟨rfl, _, rfl, ⟨rfl, rfl⟩, fun h => Bool.noConfusion h.1⟩

/-- A faulted state without, and one with, the reset request. -/
theorem witness_faulted :
    ({ sample with fault := some (.busError 7) } : State).fault = some (.busError 7) ∧
      ({ sample with fault := some (.busError 7) } : State).resetRequest = false ∧
      ∃ t, step { sample with fault := some (.busError 7), resetRequest := true } = .next t ∧
        ({ sample with fault := some (.busError 7), resetRequest := true } : State).fault ≠ none :=
  ⟨rfl, rfl, _, rfl, by decide⟩

/-- The reset request, taken. -/
theorem witness_reset : ({ sample with resetRequest := true } : State).resetRequest = true ∧
    ∃ t, step { sample with resetRequest := true } = .next t := ⟨rfl, _, rfl⟩

theorem witness_written_stays : ∃ t, sample.resetRequest = false ∧ step sample = .next t ∧ readReg sample .src ≠ .unwritten :=
  ⟨_, rfl, rfl, by decide⟩

/-- A command runs on `sample`: with Success, with a failing status, and with a fault. -/
theorem witness_commands_run :
    (∃ t, exec .deltaEncode sample = .next t ∧ OperandsWritten sample 0x1000 0x1008 2 ∧
      isVarint .deltaEncode = false ∧ sample.status ≠ .written 3#32) ∧
      (∃ t, exec .deltaEncode (st plain [] 0x1000 0x1008 1) = .next t ∧ t.status ≠ .written 0#32) ∧
      ∃ t, exec .deltaEncode (st plain [] 0x1000 0x1000 2) = .next t ∧ t.fault ≠ (st plain [] 0x1000 0x1000 2).fault :=
  ⟨⟨_, rfl, ⟨rfl, rfl, rfl⟩, rfl, by decide⟩, ⟨_, rfl, by decide⟩, _, rfl, by decide⟩

/-- Each of the three operand registers the first unwritten one. -/
theorem witness_unwritten_operands :
    State.reset.src = .unwritten ∧
      (({ State.reset with src := .written 0 } : State).src ≠ .unwritten ∧
        ({ State.reset with src := .written 0 } : State).dst = .unwritten) ∧
      ({ State.reset with src := .written 0, dst := .written 0 } : State).src ≠ .unwritten ∧
      ({ State.reset with src := .written 0, dst := .written 0 } : State).dst ≠ .unwritten ∧
      ({ State.reset with src := .written 0, dst := .written 0 } : State).len = .unwritten := by decide

/-- Each way validation fails, at the boundary lengths: both (DS6), null alone (DS5), length alone (DS2, ZS1, VX1). -/
theorem witness_validation_failures :
    OperandsWritten (st plain [] 0 0x2000 1) 0 0x2000 1 ∧ LengthTooShort plain (1#32).toNat .deltaEncode ∧
      OperandsWritten (st plain [] 0x1000 0 2) 0x1000 0 2 ∧ ¬LengthTooShort plain (2#32).toNat .deltaEncode ∧
      OperandsWritten (st plain [] 0x1000 0x2000 1) 0x1000 0x2000 1 ∧ ¬(0x1000#32 = 0#32 ∨ 0x2000#32 = 0#32) ∧
      LengthTooShort plain (0#32).toNat .zigzagDecode ∧ ¬LengthTooShort plain (1#32).toNat .zigzagDecode ∧
      LengthTooShort ⟨32, 0, [], .reject⟩ (0#32).toNat .varintEncode ∧
      ¬LengthTooShort ⟨32, 0, [], .reject⟩ (1#32).toNat .varintEncode := by
  refine ⟨⟨rfl, rfl, rfl⟩, ?_, ⟨rfl, rfl, rfl⟩, ?_, ⟨rfl, rfl, rfl⟩, by decide, ?_, ?_, ?_, ?_⟩ <;>
    simp [LengthTooShort]

theorem witness_empty_varint :
    isVarint .varintDecode = true ∧ OperandsWritten (st plain [] 0x1000 0x2000 0) 0x1000 0x2000 0#32 ∧
      0x1000#32 ≠ 0#32 ∧ 0x2000#32 ≠ 0#32 ∧ (st plain [] 0x1000 0x2000 0).platform.varintEmpty = .accept ∧
      (st ⟨32, 0, [], .reject⟩ [] 0x1000 0x2000 0).platform.varintEmpty = .reject :=
  ⟨rfl, ⟨rfl, rfl, rfl⟩, by decide, by decide, rfl, rfl⟩

/-- Each memory fault, at its boundary: an input one byte too long (DS10 is 8 too long), a missing input byte, an output one
byte too long, a missing output byte, and regions that share their last or first byte. -/
theorem witness_memory_faults :
    Validated .deltaEncode (st plain [] 0xFFFFFFF9 0x1000 2) 0xFFFFFFF9 0x1000 2 ∧
      2 ^ plain.addrW < (0xFFFFFFF9#32).toNat + inputBytes 2 .deltaEncode ∧
      LeastUnbacked ⟨32, 0, [⟨0x1007, 1⟩], .accept⟩ 0x1000 (inputBytes 2 .deltaEncode) 0x1007 ∧
      Usable plain 0x1000 (inputBytes 2 .deltaEncode) ∧
      2 ^ plain.addrW < (0xFFFFFFF9#32).toNat + outputBytes [] 0x1000 2 .deltaEncode ∧
      LeastUnbacked ⟨32, 0, [⟨0x2007, 1⟩], .accept⟩ 0x2000 (outputBytes [] 0x1000 2 .deltaEncode) 0x2007 ∧
      Usable plain 0x1007 (outputBytes [] 0x1000 2 .deltaEncode) ∧
      InSpan 0x1000 (inputBytes 2 .deltaEncode) 0x1007 ∧ InSpan 0x1007 (outputBytes [] 0x1000 2 .deltaEncode) 0x1007 :=
  ⟨⟨⟨rfl, rfl, rfl⟩, by decide⟩, by decide, firstUnbacked_eq_some.1 (by decide), checkRegion_eq_none.1 (by decide),
    by decide, firstUnbacked_eq_some.1 (by decide), checkRegion_eq_none.1 (by decide), by unfold InSpan; decide,
    by unfold InSpan; decide⟩

/-- Two states that agree on the input and differ elsewhere: in the output region and in OLEN. -/
theorem witness_independence :
    Memory.wf (st plain [] 0x1000 0x2000 2).mem ∧ Memory.wf (st plain [(0x2000, 9#8)] 0x1000 0x2000 2).mem ∧
      OperandsWritten (st plain [] 0x1000 0x2000 2) 0x1000 0x2000 2 ∧
      OperandsWritten { st plain [(0x2000, 9#8)] 0x1000 0x2000 2 with olen := .written 14 } 0x1000 0x2000 2 ∧
      ∀ j, InSpan 0x1000 (inputBytes 2 .deltaEncode) j → readByte [] j = readByte [(0x2000, 9#8)] j :=
  ⟨by decide, by decide, ⟨rfl, rfl, rfl⟩, ⟨rfl, rfl, rfl⟩, fun j hj => by
    have h := hj.2
    simp only [inputBytes] at h
    have h2 : j ≠ 0x2000 := by omega
    simp [readByte, h2]⟩

theorem witness_delta_sequences : 2 ≤ [0x7FFFFFFF#32, 0x80000000#32].length ∧
    (deltaDecodeSeq [0x7FFFFFFF#32, 0x00000001#32])[0]? = some 0x7FFFFFFF#32 := by decide

/-- Magnitudes at the ends: 1 below 2^31, and 63. -/
theorem witness_zigzag_order : (1#32).toInt.natAbs < (0x80000000#32).toInt.natAbs ∧ 0 < (1#32).toInt ∧
    (0x80000000#32).toInt < 0 ∧ (0xFFFFFFC1#32).toInt.natAbs ≤ 63 := by decide

theorem witness_varint_groups : (varintEncodeValue 0x80#32)[0]? = some 0x80#8 ∧ (varintEncodeValue 0x80#32)[1]? = some 1#8 := by
  decide

theorem witness_varint_length : 1 < varintLength 0x80#32 := by
  have h : 7 < Nat.size (0x80#32).toNat := Nat.lt_size.2 (by decide)
  unfold varintLength
  omega

/-- The largest fifth group that fits, and four groups. -/
theorem witness_complete_value :
    CompleteGroup [0xFF#8, 0xFF#8, 0xFF#8, 0xFF#8, 0x0F#8] ∧ CompleteGroup [0xFF#8, 0x80#8, 0x80#8, 0x00#8] ∧
      ([0xFF#8, 0xFF#8, 0xFF#8, 0xFF#8, 0x0F#8].getD 4 0#8).toNat % 128 ≤ 0x0F :=
  ⟨⟨[0xFF#8, 0xFF#8, 0xFF#8, 0xFF#8], 0x0F#8, rfl, by decide, rfl⟩, ⟨[0xFF#8, 0x80#8, 0x80#8], 0x00#8, rfl, by decide, rfl⟩,
    by decide⟩

/-- The smallest fifth group that does not fit (VD13 has 1F), and six groups (VD14). -/
theorem witness_overlong_value :
    CompleteGroup [0xFF#8, 0xFF#8, 0xFF#8, 0xFF#8, 0x10#8] ∧
      CompleteGroup [0x80#8, 0x80#8, 0x80#8, 0x80#8, 0x80#8, 0x00#8] ∧
      0x0F < ([0xFF#8, 0xFF#8, 0xFF#8, 0xFF#8, 0x10#8].getD 4 0#8).toNat % 128 :=
  ⟨⟨[0xFF#8, 0xFF#8, 0xFF#8, 0xFF#8], 0x10#8, rfl, by decide, rfl⟩,
    ⟨[0x80#8, 0x80#8, 0x80#8, 0x80#8, 0x80#8], 0x00#8, rfl, by decide, rfl⟩, by decide⟩

/-- VD8 and VD9. -/
theorem witness_truncated_tail :
    (∀ b ∈ [0x80#8], continues b = true) ∧ (∀ b, [0x96#8, 0x01#8].getLast? = some b → continues b = false) ∧
      ∀ b, ([] : List Byte).getLast? = some b → continues b = false :=
  ⟨by decide, fun b hb => by cases hb; rfl, fun b hb => by cases hb⟩

/-- Seven buffers of 8 bytes, the stream's two bytes among them. -/
theorem witness_pipeline :
    sample.platform.wf = true ∧ Memory.wf sample.mem ∧ 2 ≤ (2#32).toNat ∧
      (∀ x ∈ [0x1000#32, 0x1100#32, 0x1200#32, 0x1300#32, 0x1400#32, 0x1500#32, 0x1600#32], x ≠ 0#32) ∧
      (∀ x ∈ [0x1000#32, 0x1100#32, 0x1200#32, 0x1400#32, 0x1500#32, 0x1600#32], Usable sample.platform x.toNat (4 * 2)) ∧
      2 = (varintEncodeSeq ((deltaEncodeSeq (readWords sample.mem 0x1000 2)).map zzEnc)).length ∧
      Usable sample.platform 0x1300 2 ∧ Disjoint 0x1000 (4 * 2) 0x1100 (4 * 2) ∧ Disjoint 0x1100 (4 * 2) 0x1200 (4 * 2) ∧
      Disjoint 0x1200 (4 * 2) 0x1300 2 ∧ Disjoint 0x1300 2 0x1400 (4 * 2) ∧ Disjoint 0x1400 (4 * 2) 0x1500 (4 * 2) ∧
      Disjoint 0x1500 (4 * 2) 0x1600 (4 * 2) := by
  refine ⟨by decide, by decide, by decide, fun x hx => ?_, fun x hx => checkRegion_eq_none.1 ?_, by decide,
    checkRegion_eq_none.1 (by decide), ?_, ?_, ?_, ?_, ?_, ?_⟩
  · simp only [List.mem_cons, List.not_mem_nil, or_false] at hx
    rcases hx with rfl | rfl | rfl | rfl | rfl | rfl | rfl <;> decide
  · simp only [List.mem_cons, List.not_mem_nil, or_false] at hx
    rcases hx with rfl | rfl | rfl | rfl | rfl | rfl <;> decide
  all_goals exact regionsOverlap_eq_false.1 (by decide)

/-- A state that is not reset's and meets the invariant, and steps. -/
theorem witness_invariant : SystemInv sample ∧ ∃ t, step sample = .next t :=
  ⟨⟨by decide, by decide, by decide, .inl rfl, trivial, by decide⟩, _, rfl⟩

end Sys2Proof.Machine.Tests
end

/-! ## Every step keeps the invariant of the system

The invariant falls into the part that no fault record enters and the truth of that record. Each kind of step
(`step_cases`) keeps the first part; a step that raises a fault has the reason that makes its record true at hand
(`CommandFault`, `HostEffect`), and every other step from a host action starts and ends with no fault. -/

namespace Sys2Proof.Machine

/-! ### The command word and its decoding -/

theorem decodeWord_encode (i : Instr) : decodeWord (encode i) = .ok i := by cases i <;> decide

theorem encode_of_decodeWord_ok {v : Word32} {i : Instr} (h : decodeWord v = .ok i) : encode i = v := by
  unfold decodeWord at h
  split at h
  · next row hrow =>
    obtain rfl := Except.ok.inj h
    have hmatch : v &&& row.mask = row.value := of_decide_eq_true (List.find?_some hrow :)
    have htable : ∀ r ∈ opcodeMap, r.mask = BitVec.allOnes 32 ∧ encode r.command = r.value := by decide
    obtain ⟨hmask, hencode⟩ := htable row (List.mem_of_find?_eq_some hrow)
    rw [hencode, ← hmatch, hmask, BitVec.and_allOnes]
  · split at h <;> cases h

theorem encode_ne_of_decodeWord_error {v : Word32} {r : DecodeReject} (h : decodeWord v = .error r) (i : Instr) :
    encode i ≠ v := by
  rintro rfl
  simp [decodeWord_encode] at h

/-! ### The host's variables stay in rising order -/

theorem mem_assignVar {vs : List (Nat × Word32)} {t : Nat} {w : Word32} {x : Nat × Word32}
    (h : x ∈ assignVar vs t w) : x = (t, w) ∨ x ∈ vs := by
  induction vs with
  | nil => exact .inl (List.mem_singleton.1 h)
  | cons y vs ih =>
    unfold assignVar at h
    split at h
    · exact List.mem_cons.1 h
    · split at h
      · exact (List.mem_cons.1 h).imp_right (List.mem_cons_of_mem _)
      · rcases List.mem_cons.1 h with rfl | h
        · exact .inr List.mem_cons_self
        · exact (ih h).imp_right (List.mem_cons_of_mem _)

theorem pairwise_assignVar {vs : List (Nat × Word32)} (h : vs.Pairwise fun x y => x.1 < y.1) (t : Nat) (w : Word32) :
    (assignVar vs t w).Pairwise fun x y => x.1 < y.1 := by
  induction vs with
  | nil => exact List.pairwise_singleton _ _
  | cons y vs ih =>
    obtain ⟨u, x⟩ := y
    obtain ⟨hlt, hvs⟩ := List.pairwise_cons.1 h
    unfold assignVar
    split
    · next htu =>
      refine List.pairwise_cons.2 ⟨fun z hz => ?_, h⟩
      rcases List.mem_cons.1 hz with rfl | hz
      · exact htu
      · exact htu.trans (hlt z hz)
    · next htu =>
      split
      · next heq => exact List.pairwise_cons.2 ⟨heq ▸ hlt, hvs⟩
      · next hne =>
        refine List.pairwise_cons.2 ⟨fun z hz => ?_, ih hvs⟩
        rcases mem_assignVar hz with rfl | hz
        · show u < t
          omega
        · exact hlt z hz

/-! ### Which addresses a write leaves listed -/

theorem backed_of_usable {p : Platform} {a k j : Nat} (h : Usable p a k) (hj : InSpan a k j) : backed p j = true :=
  firstUnbacked_eq_none.1 (firstUnbacked_of_usable h) j hj

/-! ### The invariant in two parts -/

/-- The part of `SystemInv` that does not speak of the fault record. -/
structure InvBesidesFault (s : State) : Prop where
  platform : s.platform.wf = true
  memWf : Memory.wf s.mem
  memBacked : ∀ c ∈ s.mem, backed s.platform c.1 = true
  status : StatusLegal s.status
  vars : s.host.vars.Pairwise fun x y => x.1 < y.1

theorem systemInv_iff {s : State} : SystemInv s ↔ InvBesidesFault s ∧ FaultTruthful s := by
  constructor
  · rintro ⟨hp, hwf, hb, hst, hf, hv⟩
    exact ⟨⟨hp, hwf, hb, hst, hv⟩, hf⟩
  · rintro ⟨⟨hp, hwf, hb, hst, hv⟩, hf⟩
    exact ⟨hp, hwf, hb, hst, hf, hv⟩

theorem faultTruthful_of_no_fault {s : State} (h : s.fault = none) : FaultTruthful s := by
  simp [FaultTruthful, h]

theorem InvBesidesFault.systemInv {s : State} (h : InvBesidesFault s) (hf : s.fault = none) : SystemInv s :=
  systemInv_iff.2 ⟨h, faultTruthful_of_no_fault hf⟩

theorem InvBesidesFault.systemInv_raiseFault {s : State} {f : FaultRecord} (h : InvBesidesFault s)
    (hf : FaultTruthful (raiseFault f s)) : SystemInv (raiseFault f s) :=
  systemInv_iff.2 ⟨{ h with }, hf⟩

/-- Where the host stands, and whether it has ended, does not enter the invariant. -/
theorem SystemInv.move_host {s : State} (h : SystemInv s) (p : Nat) (ended : Bool) :
    SystemInv { s with host := { s.host with pos := p, halted := ended } } := h

theorem SystemInv.advance {s : State} (h : SystemInv s) : SystemInv (advance s) := by
  obtain ⟨p, hp⟩ := advance_eq s
  exact hp ▸ h.move_host p s.host.halted

theorem SystemInv.applyReset {s : State} (h : SystemInv s) : SystemInv (applyReset s) :=
  have hi := (systemInv_iff.1 h).1
  InvBesidesFault.systemInv { hi with status := .inl rfl } rfl

/-! ### A command keeps it -/

/-- A command's fault record is true of the state it is raised in, CMD holding the command word (R238 to R241). -/
theorem CommandFault.truthful {i : Instr} {s : State} {f : FaultRecord} (h : CommandFault i s f)
    (hc : s.cmd = .written (encode i)) : FaultTruthful (raiseFault f s) := by
  cases h with
  | unwritten r hr => exact hr
  | range a k hk hr => exact ⟨hk, hr⟩
  | bus j hj => exact hj
  | overlap => exact ⟨hc, i, rfl⟩

theorem recordCount_eq (count : Option Nat) (s : State) : ∃ v, recordCount count s = { s with olen := v } := by
  cases count with
  | none => exact ⟨s.olen, rfl⟩
  | some m => exact ⟨_, rfl⟩

/-- Only bytes of a usable output region come to be listed. -/
theorem backed_of_mem_writeTo {s : State} (h : InvBesidesFault s) {d : Nat} {b : Buffer}
    (hu : Usable s.platform d b.size) : ∀ c ∈ b.writeTo s.mem d, backed s.platform c.1 = true :=
  fun c hc => (mem_writeTo hc).elim (backed_of_usable hu) (h.memBacked c)

theorem systemInv_runCommand {i : Instr} {s : State} (h : InvBesidesFault s) (hf : s.fault = none)
    (hc : s.cmd = .written (encode i)) : SystemInv (runCommand (commandOf i) s) := by
  rcases runCommand_cases i s with ⟨f, hfault, ht⟩ | ⟨d, ht | ht⟩ | ⟨-, -, ht⟩ | ⟨a, b, n, r, -, -, -, hout, -, ht⟩
  · exact ht ▸ h.systemInv_raiseFault (hfault.truthful hc)
  · exact ht ▸ InvBesidesFault.systemInv { h with status := .inr (.inr (.inl rfl)) } hf
  · exact ht ▸ InvBesidesFault.systemInv { h with status := .inr (.inr (.inr rfl)) } hf
  · exact ht ▸ InvBesidesFault.systemInv { h with status := .inr (.inl rfl) } hf
  · obtain ⟨v, hv⟩ := recordCount_eq r.count { s with mem := r.output.writeTo s.mem b.toNat, draws := r.draws }
    rw [ht, hv]
    exact InvBesidesFault.systemInv
      { h with
        memWf := wf_writeTo h.memWf b.toNat r.output
        memBacked := backed_of_mem_writeTo h hout
        status := .inr (.inl rfl) } hf

/-! ### A host action keeps it -/

/-- A CMD write: the word is stored, and the illegal word or the command has its effect on that state. -/
theorem systemInv_of_writesCmd {act : HostAction} {s t : State} (h : InvBesidesFault s) (hf : s.fault = none)
    (hw : WritesCmd act) (ht : runAction act s = .next t) : SystemInv t := by
  obtain ⟨v, u, rfl, hu⟩ := runAction_writesCmd hw ht
  have hstored : InvBesidesFault { s with cmd := .written v } := { h with }
  apply SystemInv.advance
  rcases hu with ⟨r, hd, rfl⟩ | ⟨i, hd, rfl⟩
  · exact hstored.systemInv_raiseFault ⟨rfl, encode_ne_of_decodeWord_error hd⟩
  · exact systemInv_runCommand hstored hf (congrArg _ (encode_of_decodeWord_ok hd).symm)

theorem HostEffect.systemInv {act : HostAction} {s u : State} (he : HostEffect act s u) (h : InvBesidesFault s)
    (hf : s.fault = none) : SystemInv u := by
  cases he with
  | badAccess off width hr => exact h.systemInv_raiseFault hr
  | unwritten r _ hr => exact h.systemInv_raiseFault hr
  | missing j _ hj => exact h.systemInv_raiseFault hj
  | writeSrc w => exact InvBesidesFault.systemInv { h with } hf
  | writeDst w => exact InvBesidesFault.systemInv { h with } hf
  | writeLen w => exact InvBesidesFault.systemInv { h with } hf
  | store a bs _ hb =>
    exact InvBesidesFault.systemInv
      { h with
        memWf := wf_writeBytes h.memWf a bs
        memBacked := fun c hc => (mem_writeBytes hc).elim (hb c.1) (h.memBacked c) } hf
  | assign v w => exact InvBesidesFault.systemInv { h with vars := pairwise_assignVar h.vars v w } hf
  | nothing => exact h.systemInv hf

theorem systemInv_runAction {act : HostAction} {s t : State} (h : SystemInv s) (hf : s.fault = none)
    (ht : runAction act s = .next t) : SystemInv t := by
  have hi := (systemInv_iff.1 h).1
  by_cases hw : WritesCmd act
  · exact systemInv_of_writesCmd hi hf hw ht
  · obtain ⟨u, p, he, rfl⟩ := runAction_cases hw ht
    exact (he.systemInv hi hf).move_host p _

/-- Settles O53: a reset, an idle step and every host action, commands included, keep the invariant. -/
theorem stepKeepsInvariant : Obligations.StepKeepsInvariant := by
  intro s t h ht
  rcases step_cases ht with ⟨-, rfl⟩ | ⟨-, rfl⟩ | ⟨act, ⟨-, hf, -, -⟩, hrun⟩
  · exact h.applyReset
  · exact h
  · exact systemInv_runAction h hf hrun

end Sys2Proof.Machine

/-! ## Registers, the fault record and reset (spec/10_state.md)

A host access by name and the same access by offset are one step (`step_registerWrite`, `step_registerRead`); what a
command leaves alone is said once (`runCommand_frame`), and with `HostEffect` it gives what every step keeps. -/

namespace Sys2Proof.Machine

/-! ### The register window -/

theorem registerAt_eq_some {off width : Nat} {r : RegName} :
    registerAt off width = some r ↔ width = 32 ∧ off = regOffset r := by
  constructor
  · intro h
    unfold registerAt at h
    split at h
    · next hw =>
      refine ⟨hw, ?_⟩
      split at h <;> cases h <;> rfl
    · cases h
  · rintro ⟨rfl, rfl⟩
    exact registerAt_regOffset r

theorem regOffset_mod_four (r : RegName) : regOffset r % 4 = 0 := by cases r <;> rfl

theorem regOffset_lt_window (r : RegName) : regOffset r < 0x18 := by cases r <;> decide

theorem base_aligned_of_wf {p : Platform} (h : p.wf = true) : p.base % 4 = 0 := by
  simp only [Platform.wf, Bool.and_eq_true, decide_eq_true_eq] at h
  exact h.2

/-! ### A host write of a register, by name or by offset -/

@[simp] theorem thenAdvance_next (s : State) : thenAdvance (.next s) = .next (advance s) := rfl

theorem AtAction.fault {s : State} {act : HostAction} (h : AtAction s act) : s.fault = none := h.2.1

theorem AtRegisterWrite.fault {s : State} {r : RegName} {o : HostOperand} (h : AtRegisterWrite s r o) :
    s.fault = none := h.elim AtAction.fault AtAction.fault

theorem step_registerWrite {s : State} {r : RegName} {o : HostOperand} (h : AtRegisterWrite s r o) :
    step s = thenAdvance (hostWrite (regOffset r) 32 (hostValue s o) s) := by
  rcases h with h | h
  · exact step_at h
  · exact step_at h

@[simp] theorem hostWrite_src (v : Word32) (s : State) :
    hostWrite (regOffset .src) 32 v s = .next { s with src := .written v } := rfl

@[simp] theorem hostWrite_dst (v : Word32) (s : State) :
    hostWrite (regOffset .dst) 32 v s = .next { s with dst := .written v } := rfl

@[simp] theorem hostWrite_len (v : Word32) (s : State) :
    hostWrite (regOffset .len) 32 v s = .next { s with len := .written v } := rfl

@[simp] theorem hostWrite_olen (v : Word32) (s : State) : hostWrite (regOffset .olen) 32 v s = .next s := rfl

@[simp] theorem hostWrite_status (v : Word32) (s : State) : hostWrite (regOffset .status) 32 v s = .next s := rfl

@[simp] theorem hostWrite_cmd (v : Word32) (s : State) :
    hostWrite (regOffset .cmd) 32 v s = issueCommand v { s with cmd := .written v } := rfl

/-- A register write that answers a state with no fault is complete, and the host goes on. -/
theorem step_registerWrite_next {s t : State} {r : RegName} {o : HostOperand} (h : AtRegisterWrite s r o)
    (ht : hostWrite (regOffset r) 32 (hostValue s o) s = .next t) (hf : t.fault = none) :
    step s = .next { t with host := nextHost t } := by
  rw [step_registerWrite h, ht, thenAdvance_next, advance_of_no_fault hf]

/-- A CMD write stores the word and then issues it as a command. -/
theorem step_cmdWrite {s : State} {o : HostOperand} (h : AtRegisterWrite s .cmd o) :
    step s = thenAdvance (issueCommand (hostValue s o) { s with cmd := .written (hostValue s o) }) := by
  rw [step_registerWrite h, hostWrite_cmd]

theorem issueCommand_of_ok {v : Word32} {i : Instr} (h : decodeWord v = .ok i) (s : State) :
    issueCommand v s = exec i s := by simp [issueCommand, h]

/-- A CMD write of a command word: the command's state, with the host moved past the write unless it faulted. -/
theorem step_cmdWrite_of_exec {s t : State} {o : HostOperand} {i : Instr} (h : AtRegisterWrite s .cmd o)
    (hd : decodeWord (hostValue s o) = .ok i) (ht : exec i { s with cmd := .written (hostValue s o) } = .next t) :
    (t.fault = none → step s = .next { t with host := nextHost t }) ∧ (t.fault ≠ none → step s = .next t) := by
  have hstep : step s = .next (advance t) := by
    rw [step_cmdWrite h, issueCommand_of_ok hd, ht, thenAdvance_next]
  exact ⟨fun hf => by rw [hstep, advance_of_no_fault hf], fun hf => by rw [hstep, advance_of_fault hf]⟩

/-- `withFetchWord` puts an unfaulted state's host before the CMD write of the word. -/
theorem withFetchWord_atRegisterWrite {s : State} {w : Nat} (hf : s.fault = none) (hw : w < 2 ^ 32) :
    AtRegisterWrite (s.withFetchWord 32 w) .cmd (.lit (BitVec.ofNat 32 w)) :=
  have hword : w % 2 ^ 32 = w := Nat.mod_eq_of_lt hw
  .inl ⟨rfl, hf, rfl, by rw [State.withFetchWord, hword]; rfl⟩

/-! ### A host read of a register -/

theorem AtRegisterRead.fault {s : State} {t : Nat} {r : RegName} (h : AtRegisterRead s t r) : s.fault = none :=
  h.elim AtAction.fault AtAction.fault

theorem step_registerRead {s : State} {t : Nat} {r : RegName} (h : AtRegisterRead s t r) :
    step s = .next (advance (hostRead t (regOffset r) 32 s)) := by
  rcases h with h | h
  · exact step_at h
  · exact step_at h

theorem hostRead_of_written {s : State} {r : RegName} {w : Word32} (t : Nat) (h : readReg s r = .written w) :
    hostRead t (regOffset r) 32 s = setVar t w s := by simp [hostRead, h]

theorem hostRead_of_unwritten {s : State} {r : RegName} (t : Nat) (h : readReg s r = .unwritten) :
    hostRead t (regOffset r) 32 s = raiseFault (.unwrittenRegister r) s := by simp [hostRead, h]

/-! ### Faulted states and reset -/

@[simp] theorem readReg_applyReset (s : State) (r : RegName) : readReg (applyReset s) r = .unwritten := by
  cases r <;> rfl

@[simp] theorem readReg_reset (r : RegName) : readReg State.reset r = .unwritten := by cases r <;> rfl

theorem step_stopped {s : State} {f : FaultRecord} (hr : s.resetRequest = false) (hf : s.fault = some f) :
    step s = .fault (.stopped f) := by simp [step, systemStep, hr, hf]

/-- The only step that goes on from a faulted state is the reset. -/
theorem step_of_faulted {s t : State} (h : step s = .next t) (hf : s.fault ≠ none) :
    s.resetRequest = true ∧ t = applyReset s := by
  rcases step_cases h with hreset | ⟨hn, -⟩ | ⟨act, hact, -⟩
  · exact hreset
  · exact absurd hn hf
  · exact absurd hact.fault hf

theorem eq_applyReset_of_step {s t : State} (hr : s.resetRequest = true) (h : step s = .next t) :
    t = applyReset s := by
  rw [step_reset hr] at h
  cases h
  rfl

/-- The free values of the parameters are within R7's bounds: BASE is a multiple of four whatever `Config.baseWord` is. -/
theorem configPlatform_wf : Config.platform.wf = true := by
  simp [Platform.wf, Config.platform, Config.addrW, Config.base]

/-! ### What a command leaves alone -/

/-- A command leaves CMD, SRC, DST, LEN, the host, the parameters and the reset input alone; OLEN and STATUS it leaves or
writes. -/
theorem runCommand_frame (i : Instr) (s : State) :
    ∃ olen status fault mem draws,
      runCommand (commandOf i) s =
        { s with olen := olen, status := status, fault := fault, mem := mem, draws := draws } ∧
      (olen = s.olen ∨ ∃ w, olen = .written w) ∧ (status = s.status ∨ ∃ w, status = .written w) := by
  rcases runCommand_cases i s with ⟨f, -, ht⟩ | ⟨d, ht | ht⟩ | ⟨-, -, ht⟩ | ⟨a, b, n, ⟨out, count, d⟩, -, -, -, -, -, ht⟩
  · exact ⟨_, _, _, _, _, ht, .inl rfl, .inl rfl⟩
  · exact ⟨_, _, _, _, _, ht, .inl rfl, .inr ⟨_, rfl⟩⟩
  · exact ⟨_, _, _, _, _, ht, .inl rfl, .inr ⟨_, rfl⟩⟩
  · exact ⟨_, _, _, _, _, ht, .inr ⟨_, rfl⟩, .inr ⟨_, rfl⟩⟩
  · cases count with
    | none => exact ⟨_, _, _, _, _, ht, .inl rfl, .inr ⟨_, rfl⟩⟩
    | some m => exact ⟨_, _, _, _, _, ht, .inr ⟨_, rfl⟩, .inr ⟨_, rfl⟩⟩

/-- Only the varint commands compute a count. -/
theorem commandOf_count {i : Instr} (h : isVarint i = false) (m : Memory) (src n draws : Nat) :
    ((commandOf i).compute m src n draws).count = none := by
  cases i with
  | deltaEncode => rfl
  | deltaDecode => rfl
  | zigzagEncode => rfl
  | zigzagDecode => rfl
  | varintEncode => cases h
  | varintDecode => cases h

theorem runCommand_olen {i : Instr} (h : isVarint i = false) (s : State) :
    (runCommand (commandOf i) s).olen = s.olen := by
  rcases runCommand_cases i s with ⟨f, -, ht⟩ | ⟨d, ht | ht⟩ | ⟨hv, -, -⟩ | ⟨a, b, n, r, -, hr, -, -, -, ht⟩
  · rw [ht, raiseFault_olen]
  · rw [ht]
  · rw [ht]
  · simp [h] at hv
  · have hcount : r.count = none := hr ▸ commandOf_count h ..
    rw [ht, complete_olen, hcount, recordCount_none]

/-! ### What every step keeps: the parameters -/

@[simp] theorem advance_platform (s : State) : (advance s).platform = s.platform := by
  obtain ⟨p, hp⟩ := advance_eq s
  rw [hp]

theorem runCommand_platform (i : Instr) (s : State) : (runCommand (commandOf i) s).platform = s.platform := by
  obtain ⟨_, _, _, _, _, ht, -⟩ := runCommand_frame i s
  rw [ht]

theorem HostEffect.platform {act : HostAction} {s u : State} (h : HostEffect act s u) : u.platform = s.platform := by
  cases h <;> rfl

theorem runAction_platform {act : HostAction} {s t : State} (h : runAction act s = .next t) :
    t.platform = s.platform := by
  by_cases hw : WritesCmd act
  · obtain ⟨v, u, rfl, ⟨r, -, rfl⟩ | ⟨i, -, rfl⟩⟩ := runAction_writesCmd hw h
    · simp
    · rw [advance_platform, runCommand_platform]
  · obtain ⟨u, p, he, rfl⟩ := runAction_cases hw h
    exact he.platform

/-! ### What every step keeps: written registers -/

/-- Every register that is written in `s` is written in `t` (R41). -/
def KeepsWritten (s t : State) : Prop := ∀ r, readReg s r ≠ .unwritten → readReg t r ≠ .unwritten

theorem KeepsWritten.trans {s u t : State} (h : KeepsWritten s u) (h' : KeepsWritten u t) : KeepsWritten s t :=
  fun r hr => h' r (h r hr)

theorem keepsWritten_of_readReg_eq {s t : State} (h : ∀ r, readReg t r = readReg s r) : KeepsWritten s t :=
  fun r hr => (h r).symm ▸ hr

/-- Where each register is as it was or newly written, none becomes unwritten. -/
theorem keepsWritten_of_kept_or_written {s t : State}
    (h : ∀ r, readReg t r = readReg s r ∨ ∃ w, readReg t r = .written w) : KeepsWritten s t := by
  intro r hr
  rcases h r with heq | ⟨w, hw⟩
  · rwa [heq]
  · simp [hw]

@[simp] theorem readReg_raiseFault (f : FaultRecord) (s : State) (r : RegName) :
    readReg (raiseFault f s) r = readReg s r := by cases r <;> rfl

@[simp] theorem readReg_setVar (t : Nat) (w : Word32) (s : State) (r : RegName) :
    readReg (setVar t w s) r = readReg s r := by cases r <;> rfl

theorem readReg_withMem (m : Memory) (s : State) (r : RegName) : readReg { s with mem := m } r = readReg s r := by
  cases r <;> rfl

theorem readReg_withHost (x : HostState) (s : State) (r : RegName) : readReg { s with host := x } r = readReg s r := by
  cases r <;> rfl

theorem keepsWritten_withHost (x : HostState) (s : State) : KeepsWritten s { s with host := x } :=
  keepsWritten_of_readReg_eq (readReg_withHost x s)

theorem keepsWritten_advance (s : State) : KeepsWritten s (advance s) := by
  obtain ⟨p, hp⟩ := advance_eq s
  exact hp ▸ keepsWritten_withHost _ s

theorem keepsWritten_writeCmd (v : Word32) (s : State) : KeepsWritten s { s with cmd := .written v } :=
  keepsWritten_of_kept_or_written fun r => by cases r <;> simp [readReg]

theorem keepsWritten_runCommand (i : Instr) (s : State) : KeepsWritten s (runCommand (commandOf i) s) := by
  obtain ⟨olen, status, _, _, _, ht, holen, hstatus⟩ := runCommand_frame i s
  rw [ht]
  refine keepsWritten_of_kept_or_written fun r => ?_
  cases r with
  | cmd => exact .inl rfl
  | src => exact .inl rfl
  | dst => exact .inl rfl
  | len => exact .inl rfl
  | olen => exact holen
  | status => exact hstatus

theorem HostEffect.keepsWritten {act : HostAction} {s u : State} (h : HostEffect act s u) : KeepsWritten s u := by
  cases h with
  | badAccess => exact keepsWritten_of_readReg_eq (readReg_raiseFault _ s)
  | unwritten => exact keepsWritten_of_readReg_eq (readReg_raiseFault _ s)
  | missing => exact keepsWritten_of_readReg_eq (readReg_raiseFault _ s)
  | writeSrc w => exact keepsWritten_of_kept_or_written fun r => by cases r <;> simp [readReg]
  | writeDst w => exact keepsWritten_of_kept_or_written fun r => by cases r <;> simp [readReg]
  | writeLen w => exact keepsWritten_of_kept_or_written fun r => by cases r <;> simp [readReg]
  | store => exact keepsWritten_of_readReg_eq (readReg_withMem _ s)
  | assign v w => exact keepsWritten_of_readReg_eq (readReg_setVar v w s)
  | nothing => exact fun _ hr => hr

theorem keepsWritten_runAction {act : HostAction} {s t : State} (h : runAction act s = .next t) : KeepsWritten s t := by
  by_cases hw : WritesCmd act
  · obtain ⟨v, u, rfl, hu⟩ := runAction_writesCmd hw h
    have hcmd := keepsWritten_writeCmd v s
    rcases hu with ⟨_, -, rfl⟩ | ⟨i, -, rfl⟩
    · exact (hcmd.trans (keepsWritten_of_readReg_eq (readReg_raiseFault _ _))).trans (keepsWritten_advance _)
    · exact (hcmd.trans (keepsWritten_runCommand i _)).trans (keepsWritten_advance _)
  · obtain ⟨u, p, he, rfl⟩ := runAction_cases hw h
    exact he.keepsWritten.trans (keepsWritten_withHost _ u)

/-! ### The obligations -/

/-- Settles O20: with the reset excluded a step is idle or one host action, and no action unwrites a register. -/
theorem writtenRegistersStayWritten : Obligations.WrittenRegistersStayWritten := by
  intro s t r hreset ht
  rcases step_cases ht with ⟨hr, -⟩ | ⟨-, rfl⟩ | ⟨act, -, hrun⟩
  · simp [hreset] at hr
  · exact id
  · exact keepsWritten_runAction hrun r

/-- Settles O21: neither the reset nor any host action writes the parameters. -/
theorem stepKeepsParameters : Obligations.StepKeepsParameters := by
  intro s t ht
  rcases step_cases ht with ⟨-, rfl⟩ | ⟨-, rfl⟩ | ⟨act, -, hrun⟩
  · exact applyReset_platform s
  · rfl
  · exact runAction_platform hrun

/-- Settles O25: the count is OLEN's only writer, and these four commands compute none. -/
theorem onlyVarintWritesCount : Obligations.OnlyVarintWritesCount := by
  intro i s t hi ht
  rw [exec_eq] at ht
  cases ht
  exact runCommand_olen hi s

/-- Settles O3: `withFetchWord` makes a state that stands before the CMD write, so its part follows from the first. -/
theorem stepRunsDecodedCommand : Obligations.StepRunsDecodedCommand := by
  refine ⟨fun s o i t h hd ht => step_cmdWrite_of_exec h hd ht, ?_⟩
  rintro s u w i t rfl hf hw hd ht
  exact step_cmdWrite_of_exec (withFetchWord_atRegisterWrite hf hw) hd ht

/-- Settles O5: the offsets are those of `regOffset`, which are multiples of four below 0x18. -/
theorem registerMapHasSixOffsets : Obligations.RegisterMapHasSixOffsets := by
  refine ⟨rfl, rfl, rfl, rfl, rfl, rfl, fun _ _ _ => registerAt_eq_some, fun p r hp => ?_⟩
  have hbase := base_aligned_of_wf hp
  have halign := regOffset_mod_four r
  have hlt := regOffset_lt_window r
  unfold busAddress
  omega

/-- Settles O6: the write to each register is what `hostWrite` does at its offset, and the host goes on. -/
theorem hostWriteSetsRegister : Obligations.HostWriteSetsRegister := by
  intro s r o h
  refine ⟨?_, ?_, ?_, ?_, ?_, ?_⟩ <;> rintro rfl
  · exact step_registerWrite_next h (hostWrite_src _ s) h.fault
  · exact step_registerWrite_next h (hostWrite_dst _ s) h.fault
  · exact step_registerWrite_next h (hostWrite_len _ s) h.fault
  · exact step_registerWrite_next h (hostWrite_olen _ s) h.fault
  · exact step_registerWrite_next h (hostWrite_status _ s) h.fault
  · exact step_cmdWrite h

/-- Settles O7: a written register's word is assigned and the host goes on; an unwritten one faults, and it stays. -/
theorem hostReadReturnsRegister : Obligations.HostReadReturnsRegister := by
  intro s t r h
  constructor
  · intro w hw
    rw [step_registerRead h, hostRead_of_written t hw, advance_of_no_fault (s := setVar t w s) h.fault]
    rfl
  · intro hu
    rw [step_registerRead h, hostRead_of_unwritten t hu, advance_of_fault (by simp)]
    rfl

/-- Settles O17: a faulted state is stopped, and only the reset goes on from it. -/
theorem faultStopsUntilReset : Obligations.FaultStopsUntilReset := by
  refine ⟨rfl, fun s f hf => ⟨?_, fun hr => step_stopped hr hf⟩, ?_⟩
  · rintro ⟨-, hn⟩
    simp [hf] at hn
  · intro s t ht hf
    obtain ⟨hr, rfl⟩ := step_of_faulted ht hf
    exact ⟨hr, applyReset_fault s⟩

/-- Settles O18: the step that resets is `applyReset`, and no other step goes on from a fault. -/
theorem resetUnwritesRegisters : Obligations.ResetUnwritesRegisters := by
  refine ⟨fun s hr => ?_, fun s t ht hf _ => (step_of_faulted ht hf).1, readReg_reset, rfl⟩
  exact ⟨applyReset s, step_reset hr, readReg_applyReset s, applyReset_fault s, applyReset_mem s⟩

/-- Settles O19: what `applyReset` and `State.reset` leave or hold besides the registers and the fault record. -/
theorem resetLeavesTheRest : Obligations.ResetLeavesTheRest := by
  refine ⟨fun s t hr ht => ?_, rfl, rfl, rfl⟩
  obtain rfl := eq_applyReset_of_step hr ht
  exact ⟨applyReset_host s, applyReset_platform s, applyReset_draws s, applyReset_resetRequest s⟩

/-- Settles O54: R7's bounds hold of the free parameters; memory and variables are empty, STATUS is unwritten. -/
theorem resetMeetsInvariant : Obligations.ResetMeetsInvariant :=
  InvBesidesFault.systemInv
    { platform := configPlatform_wf
      memWf := ⟨List.Pairwise.nil, by simp [State.reset]⟩
      memBacked := by simp [State.reset]
      status := .inl rfl
      vars := List.Pairwise.nil } rfl

end Sys2Proof.Machine

/-! ## The host's memory accesses (spec/20_memory.md)

A store or load does its work when every byte of its span exists, and otherwise raises BusError at the least missing one
(`advance_hostStore_of_usable`, `advance_hostStore_of_missing`, and the same for a load); each of the four actions is one
of these. `HostEffect` says which actions can change memory or the results. -/

namespace Sys2Proof.Machine

/-! ### Bytes of a word (R62) -/

theorem bytesOfWord_getElem (w : Word32) {k : Nat} (hk : k < (bytesOfWord w).length) :
    (bytesOfWord w)[k] = w.extractLsb' (8 * k) 8 :=
  match k, hk with
  | 0, _ => rfl
  | 1, _ => rfl
  | 2, _ => rfl
  | 3, _ => rfl

/-- The converse of `wordOfBytes_bytesOfWord`. -/
theorem bytesOfWord_wordOfBytes (b0 b1 b2 b3 : Byte) : bytesOfWord (wordOfBytes b0 b1 b2 b3) = [b0, b1, b2, b3] := by
  have low {n : Nat} (x : BitVec n) (b : Byte) : (x ++ b).extractLsb' 0 8 = b := BitVec.extractLsb'_append_eq_right
  have high {n : Nat} (x : BitVec n) (b : Byte) (k : Nat) : (x ++ b).extractLsb' (k + 8) 8 = x.extractLsb' k 8 :=
    BitVec.extractLsb'_append_eq_of_le (Nat.le_add_left 8 k)
  unfold bytesOfWord wordOfBytes
  rw [low, high _ _ 0, low, high _ _ 8, high _ _ 0, low, high _ _ 16, high _ _ 8, BitVec.extractLsb'_append_eq_left]

/-- A word in memory is little-endian: its bytes in order are those at its four addresses. -/
theorem bytesOfWord_readWord (m : Memory) (a : Nat) : bytesOfWord (readWord m a) = readBytes m a 4 :=
  bytesOfWord_wordOfBytes ..

theorem extractLsb'_readWord (m : Memory) (a : Nat) {k : Nat} (hk : k < 4) :
    (readWord m a).extractLsb' (8 * k) 8 = readByte m (a + k) := by
  rw [← bytesOfWord_getElem (readWord m a) hk]
  simp only [bytesOfWord_readWord, readBytes_getElem]

/-! ### A host store or load whose bytes exist, and one that touches a missing byte (R61) -/

@[simp] theorem advance_raiseFault (f : FaultRecord) (s : State) : advance (raiseFault f s) = raiseFault f s := rfl

theorem advance_hostStore_of_usable {s : State} {a : Nat} {bs : List Byte} (hf : s.fault = none)
    (h : Usable s.platform a bs.length) :
    advance (hostStore a bs s) = { s with mem := writeBytes s.mem a bs, host := nextHost s } := by
  simp only [hostStore, firstUnbacked_of_usable h]
  exact advance_of_no_fault hf

theorem advance_hostStore_of_missing {s : State} {a j : Nat} {bs : List Byte}
    (h : LeastUnbacked s.platform a bs.length j) : advance (hostStore a bs s) = raiseFault (.busError j) s := by
  simp only [hostStore, firstUnbacked_eq_some.2 h, advance_raiseFault]

theorem advance_hostLoad_of_usable {s : State} {a k : Nat} (t : Nat) (w : Word32) (hf : s.fault = none)
    (h : Usable s.platform a k) :
    advance (hostLoad t a k w s) = { s with host := { nextHost s with vars := assignVar s.host.vars t w } } := by
  simp only [hostLoad, firstUnbacked_of_usable h]
  exact advance_of_no_fault (s := setVar t w s) hf

theorem advance_hostLoad_of_missing {s : State} {a k j : Nat} (t : Nat) (w : Word32)
    (h : LeastUnbacked s.platform a k j) : advance (hostLoad t a k w s) = raiseFault (.busError j) s := by
  simp only [hostLoad, firstUnbacked_eq_some.2 h, advance_raiseFault]

/-- What a run of bytes leaves in memory: byte `k` of it at `a + k`, and everything else as it was. -/
theorem writeBytes_spec {m : Memory} (hm : Memory.wf m) (a : Nat) (bs : List Byte) :
    (∀ k (hk : k < bs.length), readByte (writeBytes m a bs) (a + k) = bs[k]) ∧
      SameOutside m (writeBytes m a bs) a bs.length :=
  ⟨fun _ hk => readByte_writeBytes_inside hm hk, fun _ hj => readByte_writeBytes_outside hj⟩

/-! ### Which actions change memory, STATUS and OLEN -/

theorem HostEffect.status_olen {act : HostAction} {s u : State} (h : HostEffect act s u) :
    u.status = s.status ∧ u.olen = s.olen := by
  cases h <;> exact ⟨rfl, rfl⟩

theorem HostEffect.mem {act : HostAction} {s u : State} (h : HostEffect act s u) (hs : ¬StoresToMemory act) :
    u.mem = s.mem := by
  cases h with
  | store _ _ ha => exact absurd ha hs
  | _ => rfl

theorem runAction_status_olen {act : HostAction} {s t : State} (hc : ¬WritesCmd act) (h : runAction act s = .next t) :
    t.status = s.status ∧ t.olen = s.olen := by
  obtain ⟨u, p, he, rfl⟩ := runAction_cases hc h
  exact he.status_olen

theorem runAction_mem {act : HostAction} {s t : State} (hc : ¬WritesCmd act) (hs : ¬StoresToMemory act)
    (h : runAction act s = .next t) : t.mem = s.mem := by
  obtain ⟨u, p, he, rfl⟩ := runAction_cases hc h
  exact he.mem hs

/-- Without a reset, a step that changes anything runs the host's action. -/
theorem exists_action_of_step_ne {s t : State} (hr : s.resetRequest = false) (h : step s = .next t) (hne : t ≠ s) :
    ∃ act, AtAction s act ∧ runAction act s = .next t := by
  rcases step_cases h with ⟨hreset, -⟩ | ⟨-, rfl⟩ | hact
  · simp [hr] at hreset
  · exact absurd rfl hne
  · exact hact

/-! ### The obligations -/

/-- Settles O10: `sb` stores a run of one byte, `sw` the four bytes of its word. -/
theorem hostStoreWritesItsBytes : Obligations.HostStoreWritesItsBytes := by
  constructor
  · intro s a b h hwf hu
    obtain ⟨hin, hout⟩ := writeBytes_spec hwf (hostValue s a).toNat [(hostValue s b).extractLsb' 0 8]
    exact ⟨_, (step_at h).trans (congrArg _ (advance_hostStore_of_usable h.fault hu)), hin 0 Nat.zero_lt_one, hout⟩
  · intro s a v h hwf hu
    obtain ⟨hin, hout⟩ := writeBytes_spec hwf (hostValue s a).toNat (bytesOfWord (hostValue s v))
    exact ⟨_, (step_at h).trans (congrArg _ (advance_hostStore_of_usable h.fault hu)),
      fun k hk => (hin k hk).trans (bytesOfWord_getElem _ hk), hout⟩

/-- Settles O11: widening keeps a byte's value, and `readWord` is little-endian. -/
theorem hostLoadReadsItsBytes : Obligations.HostLoadReadsItsBytes := by
  constructor
  · intro s t a h hu
    exact ⟨_, (step_at h).trans (congrArg _ (advance_hostLoad_of_usable t _ h.fault hu)),
      BitVec.toNat_setWidth_of_le (by decide)⟩
  · intro s t a h hu
    exact ⟨_, (step_at h).trans (congrArg _ (advance_hostLoad_of_usable t _ h.fault hu)),
      fun k hk => extractLsb'_readWord _ _ hk⟩

/-- Settles O12: the store or load raises the fault, and `advance` leaves a faulted state as it is. -/
theorem hostAccessToMissingByteFaults : Obligations.HostAccessToMissingByteFaults := by
  intro s t a v j
  constructor
  · rintro (h | h) hj
    · exact (step_at h).trans (congrArg _ (advance_hostStore_of_missing hj))
    · exact (step_at h).trans (congrArg _ (advance_hostLoad_of_missing t _ hj))
  · rintro (h | h) hj
    · exact (step_at h).trans (congrArg _ (advance_hostStore_of_missing hj))
    · exact (step_at h).trans (congrArg _ (advance_hostLoad_of_missing t _ hj))

/-- Settles O15: the step runs a host action, and one that is no CMD write (and no store) leaves the results (and memory). -/
theorem onlyCommandsAndStoresChangeResults : Obligations.OnlyCommandsAndStoresChangeResults := by
  intro s t hr ht
  constructor
  · intro hne
    obtain ⟨act, hat, hrun⟩ := exists_action_of_step_ne hr ht (by rintro rfl; simp at hne)
    refine ⟨act, hat, by_contra fun hc => ?_⟩
    obtain ⟨hstatus, holen⟩ := runAction_status_olen hc hrun
    exact hne.elim (absurd hstatus) (absurd holen)
  · intro hne
    obtain ⟨act, hat, hrun⟩ := exists_action_of_step_ne hr ht (by rintro rfl; exact hne rfl)
    refine ⟨act, hat, by_contra fun hc => ?_⟩
    obtain ⟨hcmd, hstore⟩ := not_or.1 hc
    exact hne (runAction_mem hcmd hstore hrun)

end Sys2Proof.Machine

/-! ## Command words, host variables and branches (spec/30_encoding.md)

A word is a command's word exactly when its two fields are that command's (`encode_eq_iff`), so the illegal words are read off
RSVD and OPCODE. -/

namespace Sys2Proof.Machine

/-! ### The fields of a command word (R91, R92) -/

/-- A word is RSVD above OPCODE. -/
theorem rsvd_append_opcode (v : Word32) : v.extractLsb' 8 24 ++ v.extractLsb' 0 8 = v :=
  (BitVec.extractLsb'_append_extractLsb'_eq_extractLsb' (Nat.zero_add 8).symm).trans BitVec.extractLsb'_eq_self

theorem encode_eq_iff {i : Instr} {v : Word32} :
    encode i = v ↔ v.extractLsb' 8 24 = 0#24 ∧ v.extractLsb' 0 8 = opcode i := by
  constructor
  · rintro rfl
    exact ⟨BitVec.extractLsb'_append_eq_left, BitVec.extractLsb'_append_eq_right⟩
  · rintro ⟨hrsvd, hopcode⟩
    rw [← rsvd_append_opcode v, hrsvd, hopcode]
    rfl

theorem exists_opcode_eq {b : Byte} : (∃ i, opcode i = b) ↔ 1 ≤ b.toNat ∧ b.toNat ≤ 6 := by
  constructor
  · rintro ⟨i, rfl⟩
    cases i <;> decide
  · rintro ⟨h1, h6⟩
    have row {i : Instr} (h : b.toNat = (opcode i).toNat) : ∃ i, opcode i = b := ⟨i, (BitVec.eq_of_toNat_eq h).symm⟩
    interval_cases hb : b.toNat
    · exact row (i := .deltaEncode) rfl
    · exact row (i := .deltaDecode) rfl
    · exact row (i := .zigzagEncode) rfl
    · exact row (i := .zigzagDecode) rfl
    · exact row (i := .varintEncode) rfl
    · exact row (i := .varintDecode) rfl

/-- The legal words: RSVD is 0 and OPCODE is one of 0x01 .. 0x06. -/
theorem exists_encode_eq {v : Word32} :
    (∃ i, encode i = v) ↔
      v.extractLsb' 8 24 = 0#24 ∧ 1 ≤ (v.extractLsb' 0 8).toNat ∧ (v.extractLsb' 0 8).toNat ≤ 6 := by
  rw [← exists_opcode_eq, ← exists_and_left]
  exact exists_congr fun i => encode_eq_iff.trans (and_congr_right' eq_comm)

/-- The illegal words (R93). -/
theorem forall_encode_ne {v : Word32} :
    (∀ i, encode i ≠ v) ↔
      v.extractLsb' 0 8 = 0x00#8 ∨ 7 ≤ (v.extractLsb' 0 8).toNat ∨ v.extractLsb' 8 24 ≠ 0#24 := by
  have hzero : v.extractLsb' 0 8 = 0x00#8 ↔ (v.extractLsb' 0 8).toNat = 0 := BitVec.toNat_inj.symm
  rw [← not_exists, exists_encode_eq, hzero]
  by_cases hrsvd : v.extractLsb' 8 24 = 0#24
  · simp only [hrsvd, ne_eq, not_true_eq_false, true_and, or_false]
    omega
  · simp [hrsvd]

/-! ### Decoding -/

theorem decodeTableWord_of_ok {v : Word32} {i : Instr} (h : decodeWord v = .ok i) :
    decodeTableWord 32 v.toNat = some i := by
  have hmod : v.toNat % 2 ^ 32 = v.toNat := Nat.mod_eq_of_lt v.isLt
  rw [decodeTableWord, hmod, if_pos v.isLt, BitVec.ofNat_toNat, BitVec.setWidth_eq, h]

theorem exists_decodeWord_error {v : Word32} (h : ∀ i, encode i ≠ v) : ∃ r, decodeWord v = .error r := by
  rcases hd : decodeWord v with r | i
  · exact ⟨r, rfl⟩
  · exact absurd (encode_of_decodeWord_ok hd) (h i)

theorem issueCommand_of_illegal {v : Word32} (h : ∀ i, encode i ≠ v) (s : State) :
    issueCommand v s = .next (raiseFault (.illegalCommand v) s) := by
  obtain ⟨r, hr⟩ := exists_decodeWord_error h
  simp [issueCommand, hr]

/-! ### Host variables -/

@[simp] theorem lookupVar_cons (u : Nat) (x : Word32) (vs : List (Nat × Word32)) (t : Nat) :
    lookupVar ((u, x) :: vs) t = if t = u then x else lookupVar vs t := rfl

theorem lookupVar_assignVar (vs : List (Nat × Word32)) (t : Nat) (w : Word32) (u : Nat) :
    lookupVar (assignVar vs t w) u = if u = t then w else lookupVar vs u := by
  induction vs with
  | nil => exact lookupVar_cons t w [] u
  | cons y vs ih =>
    obtain ⟨k, x⟩ := y
    unfold assignVar
    split
    · exact lookupVar_cons t w _ u
    · split
      · next heq =>
        subst heq
        rw [lookupVar_cons, lookupVar_cons]
        split <;> rfl
      · next hne =>
        rw [lookupVar_cons, lookupVar_cons, ih]
        split
        · next huk => rw [if_neg (by omega)]
        · rfl

/-! ### Where a branch or `halt` leaves the host -/

@[simp] theorem branch_decide (p : Prop) [Decidable p] (target : Nat) (s : State) :
    branch (decide p) target s =
      { s with host := { s.host with pos := if p then target else s.host.pos + 1 } } := by simp [branch]

/-- A finished system stays as it is (log entry 12). -/
theorem step_of_finished {s : State} (hr : s.resetRequest = false) (h : Finished s) : step s = .next s := by
  obtain ⟨hhalted, hfault⟩ := h
  simp [step, systemStep, hr, hfault, runHost, hhalted]

/-! ### The obligations -/

/-- Settles O2: a command's word decodes to it, the table numbers the bits as the word does, and the map's rows compare whole
words. -/
theorem decodeAndEncodeAgree : Obligations.DecodeAndEncodeAgree :=
  ⟨fun i _ => ⟨decodeWord_encode i, decodeTableWord_of_ok (decodeWord_encode i)⟩,
    fun _ _ h => encode_of_decodeWord_ok h⟩

/-- Settles O8, by induction on the list of assigned variables. -/
theorem hostVariableAssignment : Obligations.HostVariableAssignment := lookupVar_assignVar

/-- Settles O4: the illegal words are read off the two fields, and the fault keeps the host at the write. -/
theorem illegalCommandWordFaults : Obligations.IllegalCommandWordFaults := by
  refine ⟨fun v => forall_encode_ne, fun s o h hv => ?_⟩
  rw [step_cmdWrite h, issueCommand_of_illegal hv, thenAdvance_next, advance_raiseFault]
  rfl

/-- Settles O13: each branch is one `branch`, and `halt` finishes the run, which then idles. -/
theorem branchesAndHalt : Obligations.BranchesAndHalt := by
  refine ⟨fun s t v target h => ?_, fun s t v target h => ?_, fun s h => ?_⟩
  · rw [step_at h, runAction, branch_decide]
  · rw [step_at h, runAction, branch_decide, ite_not]
  · have hreset : s.resetRequest = false := h.1
    have hfinished : Finished { s with host := { s.host with halted := true } } := ⟨rfl, h.fault⟩
    exact ⟨_, step_at h, rfl, hfinished, step_of_finished hreset hfinished⟩

end Sys2Proof.Machine

/-! ## What all six commands share (spec/40_command.md)

A command reads its operands, validates, and goes on to memory. `runCommand_of_passed` and the lemmas after it say what it does
in each of these stages; `size_compute` ties the output it computes to the output region of R66; `SameOutcome` says what two
states that agree on a command's input have in common after it. -/

namespace Sys2Proof.Machine

/-! ### How many elements each coder gives -/

@[simp] theorem length_differences (prev : Word32) (ws : List Word32) : (differences prev ws).length = ws.length := by
  induction ws generalizing prev with
  | nil => rfl
  | cons w ws ih => exact congrArg (· + 1) (ih w)

@[simp] theorem length_deltaEncodeSeq (ws : List Word32) : (deltaEncodeSeq ws).length = ws.length := by
  cases ws with
  | nil => rfl
  | cons w ws => exact congrArg (· + 1) (length_differences w ws)

@[simp] theorem length_runningSums (prev : Word32) (es : List Word32) : (runningSums prev es).length = es.length := by
  induction es generalizing prev with
  | nil => rfl
  | cons e es ih => exact congrArg (· + 1) (ih _)

@[simp] theorem length_deltaDecodeSeq (es : List Word32) : (deltaDecodeSeq es).length = es.length := by
  cases es with
  | nil => rfl
  | cons e es => exact congrArg (· + 1) (length_runningSums e es)

/-- Dropping a group of seven bits makes the bit length seven less, down to 0. -/
theorem size_div_128 (v : Nat) : Nat.size (v / 128) = Nat.size v - 7 :=
  eq_of_forall_ge_iff fun k => by
    rw [tsub_le_iff_right, Nat.size_le, Nat.size_le, Nat.div_lt_iff_lt_mul (by decide), pow_add]
    exact Iff.rfl

theorem div_128_eq_zero_iff {v : Nat} : v / 128 = 0 ↔ Nat.size v ≤ 7 := by
  rw [← Nat.size_eq_zero, size_div_128, Nat.sub_eq_zero_iff_le]

/-- Where the turns are enough for the value, the loop gives one byte per group of seven bits, and one for the value 0 (R181). -/
theorem length_varintLoop {fuel v : Nat} (h : Nat.size v ≤ 7 * (fuel + 1)) :
    (varintLoop (fuel + 1) v).length = max 1 ((Nat.size v + 6) / 7) := by
  induction fuel generalizing v with
  | zero =>
    rw [varintLoop, if_neg (not_not.2 (div_128_eq_zero_iff.2 h)), List.length_singleton]
    omega
  | succ fuel ih =>
    unfold varintLoop
    split
    · next hmore =>
      have hsize := mt div_128_eq_zero_iff.2 hmore
      have hrest := size_div_128 v
      rw [List.length_cons, ih (by omega), hrest]
      omega
    · next hlast =>
      have hsize := div_128_eq_zero_iff.1 (not_not.1 hlast)
      rw [List.length_singleton]
      omega

theorem length_varintEncodeValue (w : Word32) : (varintEncodeValue w).length = varintLength w :=
  length_varintLoop ((Nat.size_le.2 w.isLt).trans (by decide))

@[simp] theorem length_varintEncodeSeq (ws : List Word32) :
    (varintEncodeSeq ws).length = (ws.map varintLength).sum := by
  simp only [varintEncodeSeq, List.length_flatMap, length_varintEncodeValue]

/-- Each end byte closes one value, whatever stands before it. -/
theorem length_splitGroups (grp bs : List Byte) : (splitGroups grp bs).length = endBytes bs := by
  induction bs generalizing grp with
  | nil => rfl
  | cons b bs ih =>
    unfold splitGroups
    split
    · next hb => rw [ih, endBytes, endBytes, List.filter_cons_of_neg (by simp [hb])]
    · next hb => rw [List.length_cons, ih, endBytes, endBytes, List.filter_cons_of_pos (by simp [hb]), List.length_cons]

theorem length_groupValues (k : Nat) (gs : List (List Byte)) : (groupValues k gs).1.length = gs.length := by
  induction gs generalizing k with
  | nil => rfl
  | cons g gs ih =>
    unfold groupValues
    split
    · exact congrArg (· + 1) (ih k)
    · exact congrArg (· + 1) (ih (k + 1))

@[simp] theorem length_varintDecodeSeq (k : Nat) (bs : List Byte) : (varintDecodeSeq k bs).1.length = endBytes bs :=
  (length_groupValues k _).trans (length_splitGroups [] bs)

/-! ### What a command computes -/

/-- What a command computes takes exactly its output region (R66). -/
theorem size_compute (i : Instr) (m : Memory) (a n k : Nat) :
    ((commandOf i).compute m a n k).output.size = outputBytes m a n i := by
  cases i with
  | deltaEncode => simp [commandOf, deltaEncodeCommand, computeDeltaEncode, Buffer.size, outputBytes]
  | deltaDecode => simp [commandOf, deltaDecodeCommand, computeDeltaDecode, Buffer.size, outputBytes]
  | zigzagEncode => simp [commandOf, zigzagEncodeCommand, computeZigzagEncode, Buffer.size, outputBytes]
  | zigzagDecode => simp [commandOf, zigzagDecodeCommand, computeZigzagDecode, Buffer.size, outputBytes]
  | varintEncode => simp [commandOf, varintEncodeCommand, computeVarintEncode, Buffer.size, outputBytes]
  | varintDecode => simp [commandOf, varintDecodeCommand, computeVarintDecode, Buffer.size, outputBytes]

/-- A command computes from the bytes of its input region and from nothing else of memory. -/
theorem compute_congr {i : Instr} {m m' : Memory} {a n : Nat}
    (h : ∀ j, InSpan a (inputBytes n i) j → readByte m j = readByte m' j) (k : Nat) :
    (commandOf i).compute m a n k = (commandOf i).compute m' a n k := by
  cases i with
  | deltaEncode => simp only [commandOf, deltaEncodeCommand, computeDeltaEncode, readWords_congr h]
  | deltaDecode => simp only [commandOf, deltaDecodeCommand, computeDeltaDecode, readWords_congr h]
  | zigzagEncode => simp only [commandOf, zigzagEncodeCommand, computeZigzagEncode, readWords_congr h]
  | zigzagDecode => simp only [commandOf, zigzagDecodeCommand, computeZigzagDecode, readWords_congr h]
  | varintEncode => simp only [commandOf, varintEncodeCommand, computeVarintEncode, readWords_congr h]
  | varintDecode => simp only [commandOf, varintDecodeCommand, computeVarintDecode, readBytes_congr (n := n) h]

/-! ### How a command ends -/

theorem eq_runCommand_of_exec {i : Instr} {s t : State} (h : exec i s = .next t) : t = runCommand (commandOf i) s := by
  rw [exec_eq] at h
  cases h
  rfl

/-- A command either only raises a fault, or raises none and reports a status, none of them Generic. -/
theorem runCommand_fault_or_status (i : Instr) (s : State) :
    (∃ f, runCommand (commandOf i) s = raiseFault f s) ∨
      ((runCommand (commandOf i) s).fault = s.fault ∧
        ((runCommand (commandOf i) s).status = .written 0x0#32 ∨ (runCommand (commandOf i) s).status = .written 0x1#32 ∨
          (runCommand (commandOf i) s).status = .written 0x2#32)) := by
  rcases runCommand_cases i s with ⟨f, -, ht⟩ | ⟨d, ht | ht⟩ | ⟨-, -, ht⟩ | ⟨a, b, n, r, -, -, -, -, -, ht⟩
  · exact .inl ⟨f, ht⟩
  · exact ht ▸ .inr ⟨rfl, .inr (.inl rfl)⟩
  · exact ht ▸ .inr ⟨rfl, .inr (.inr rfl)⟩
  · exact ht ▸ .inr ⟨rfl, .inl rfl⟩
  · obtain ⟨v, hv⟩ := recordCount_eq r.count { s with mem := r.output.writeTo s.mem b.toNat, draws := r.draws }
    rw [ht, hv]
    exact .inr ⟨rfl, .inl rfl⟩

theorem operandsWritten_unique {s : State} {a b n a' b' n' : Word32} (h : OperandsWritten s a b n)
    (h' : OperandsWritten s a' b' n') : a = a' ∧ b = b' ∧ n = n' := by
  obtain ⟨ha, hb, hn⟩ := h
  obtain ⟨ha', hb', hn'⟩ := h'
  exact ⟨RegVal.written.inj (ha.symm.trans ha'), RegVal.written.inj (hb.symm.trans hb'),
    RegVal.written.inj (hn.symm.trans hn')⟩

/-- A command leaves memory and OLEN alone, or succeeds: then, without a new fault, only its output region is written. -/
theorem runCommand_mem (i : Instr) (s : State) :
    ((runCommand (commandOf i) s).mem = s.mem ∧ (runCommand (commandOf i) s).olen = s.olen) ∨
      ((runCommand (commandOf i) s).fault = s.fault ∧ (runCommand (commandOf i) s).status = .written 0x0#32 ∧
        ∀ a b n, OperandsWritten s a b n →
          SameOutside s.mem (runCommand (commandOf i) s).mem b.toNat (outputBytes s.mem a.toNat n.toNat i)) := by
  rcases runCommand_cases i s with ⟨f, -, ht⟩ | ⟨d, ht | ht⟩ | ⟨-, -, ht⟩ | ⟨a, b, n, r, ho, hr, -, -, -, ht⟩
  · exact ht ▸ .inl ⟨rfl, rfl⟩
  · exact ht ▸ .inl ⟨rfl, rfl⟩
  · exact ht ▸ .inl ⟨rfl, rfl⟩
  · exact ht ▸ .inr ⟨rfl, rfl, fun _ _ _ _ _ _ => rfl⟩
  · obtain ⟨v, hv⟩ := recordCount_eq r.count { s with mem := r.output.writeTo s.mem b.toNat, draws := r.draws }
    rw [ht, hv]
    refine .inr ⟨rfl, rfl, fun a' b' n' ho' j hj => ?_⟩
    obtain ⟨rfl, rfl, rfl⟩ := operandsWritten_unique ho ho'
    have hsize : r.output.size = outputBytes s.mem a.toNat n.toNat i := hr ▸ size_compute i s.mem a.toNat n.toNat s.draws
    exact readByte_writeTo_outside s.mem b.toNat r.output (hsize ▸ hj)

/-! ### The stages before memory: operands and validation -/

theorem exec_of_operand_fault {s : State} {f : FaultRecord} (h : readOperands s = .error f) (i : Instr) :
    exec i s = .next (raiseFault f s) := by
  rw [exec_eq, runCommand_of_error h]

/-- A command whose checks have these results and so end it. -/
theorem exec_of_validate {i : Instr} {s t : State} {a b n : Word32} {nb lb : Bool} (h : OperandsWritten s a b n)
    (hnull : nullBad a.toNat b.toNat = nb) (hlen : (commandOf i).lenBad s.platform n.toNat = lb)
    (ht : validate nb lb s = some t) : exec i s = .next t := by
  rw [exec_eq, runCommand_of_validate h (hnull ▸ hlen ▸ ht)]

/-- Where both checks fail, a draw decides between STATUS 1 and 2 (R115). -/
theorem completeDrawn_cases (s : State) :
    completeDrawn s = { s with status := .written 0x1#32, draws := s.draws + 1 } ∨
      completeDrawn s = { s with status := .written 0x2#32, draws := s.draws + 1 } := by
  unfold completeDrawn
  split
  · exact .inl rfl
  · exact .inr rfl

theorem nullBad_eq_false {a b : Word32} : nullBad a.toNat b.toNat = false ↔ ¬(a = 0#32 ∨ b = 0#32) := by
  rw [← Bool.not_eq_true, nullBad_eq_true]

theorem commandOf_lenBad_eq_false {i : Instr} {p : Platform} {n : Nat} :
    (commandOf i).lenBad p n = false ↔ ¬LengthTooShort p n i := by
  rw [← Bool.not_eq_true, commandOf_lenBad]

/-- For LEN = 0 the varint commands' length check is the parameter VARINT_EMPTY (R114). -/
theorem lengthTooShort_zero_iff {i : Instr} (h : isVarint i = true) (p : Platform) :
    LengthTooShort p 0 i ↔ p.varintEmpty = .reject := by
  cases i with
  | deltaEncode => cases h
  | deltaDecode => cases h
  | zigzagEncode => cases h
  | zigzagDecode => cases h
  | varintEncode => exact and_iff_right rfl
  | varintDecode => exact and_iff_right rfl

/-- A command that passes validation ends at once on an empty varint input, and else goes on to memory. -/
theorem runCommand_of_passed {i : Instr} {s : State} {a b n : Word32} (h : OperandsWritten s a b n)
    (hv : validate (nullBad a.toNat b.toNat) ((commandOf i).lenBad s.platform n.toNat) s = none) :
    runCommand (commandOf i) s =
      if isVarint i && decide (n.toNat = 0) then complete .success (recordCount (some 0) s)
      else transform (commandOf i) ⟨a.toNat, b.toNat, n.toNat⟩ s := by
  simp [runCommand, readOperands_of_written h, hv]

/-! ### The memory stages of a validated command -/

/-- A validated command has an input region that is not empty. -/
theorem inputBytes_pos {i : Instr} {n : Nat} (h : workLength i ≤ n) : 0 < inputBytes n i := by
  cases i <;> simp only [workLength, inputBytes] at * <;> omega

theorem exec_of_input_fault {i : Instr} {s : State} {a b n : Word32} {f : FaultRecord} (h : Validated i s a b n)
    (hf : checkRegion s.platform a.toNat (inputBytes n.toNat i) = some f) : exec i s = .next (raiseFault f s) := by
  rw [← commandOf_inputSize] at hf
  rw [exec_eq, runCommand_of_validated h, transform_of_input_fault hf]

/-- With a usable input region a validated command computes an output of the size of R66 and comes to its commit. -/
theorem exec_of_input_usable {i : Instr} {s : State} {a b n : Word32} (h : Validated i s a b n)
    (hin : Usable s.platform a.toNat (inputBytes n.toNat i)) :
    ∃ r, r.output.size = outputBytes s.mem a.toNat n.toNat i ∧
      exec i s = .next (commit (commandOf i) ⟨a.toNat, b.toNat, n.toNat⟩ r s) := by
  rw [← commandOf_inputSize] at hin
  exact ⟨_, size_compute i s.mem a.toNat n.toNat s.draws, by
    rw [exec_eq, runCommand_of_validated h, transform_of_usable hin]⟩

theorem exec_of_output_fault {i : Instr} {s : State} {a b n : Word32} {f : FaultRecord} (h : Validated i s a b n)
    (hin : Usable s.platform a.toNat (inputBytes n.toNat i))
    (hf : checkRegion s.platform b.toNat (outputBytes s.mem a.toNat n.toNat i) = some f) :
    exec i s = .next (raiseFault f s) := by
  obtain ⟨r, hsize, hexec⟩ := exec_of_input_usable h hin
  rw [← hsize] at hf
  rw [hexec, commit_of_output_fault hf]

theorem exec_of_overlap {i : Instr} {s : State} {a b n : Word32} {j : Nat} (h : Validated i s a b n)
    (hin : Usable s.platform a.toNat (inputBytes n.toNat i))
    (hout : Usable s.platform b.toNat (outputBytes s.mem a.toNat n.toNat i))
    (hj : InSpan a.toNat (inputBytes n.toNat i) j)
    (hj' : InSpan b.toNat (outputBytes s.mem a.toNat n.toNat i) j) :
    exec i s = .next (raiseFault (.overlap (encode i)) s) := by
  obtain ⟨r, hsize, hexec⟩ := exec_of_input_usable h hin
  rw [← hsize] at hout hj'
  rw [← commandOf_inputSize] at hj
  rw [hexec, commit_of_overlap hout hj hj', commandOf_name]

/-! ### What two states that agree on the input have in common -/

/-- A command issued in `s` and in `u` with the output address `d` ends alike in `s'` and `u'`: with one fault, with one status
and count of draws, or with one computed output written and Success. -/
inductive SameOutcome (s u : State) (d : Nat) : State → State → Prop
  | fault (f : FaultRecord) : SameOutcome s u d (raiseFault f s) (raiseFault f u)
  | status (c : Status) (k : Nat) :
      SameOutcome s u d (complete c { s with draws := k }) (complete c { u with draws := k })
  | written (r : Computed) :
      SameOutcome s u d
        (complete .success (recordCount r.count { s with mem := r.output.writeTo s.mem d, draws := r.draws }))
        (complete .success (recordCount r.count { u with mem := r.output.writeTo u.mem d, draws := r.draws }))

theorem readByte_writeBytes_congr {m m' : Memory} (hm : Memory.wf m) (hm' : Memory.wf m') {d j : Nat} {bs : List Byte}
    (hj : InSpan d bs.length j) : readByte (writeBytes m d bs) j = readByte (writeBytes m' d bs) j := by
  obtain ⟨i, rfl⟩ := Nat.exists_eq_add_of_le hj.1
  have hi : i < bs.length := Nat.add_lt_add_iff_left.1 hj.2
  rw [readByte_writeBytes_inside hm hi, readByte_writeBytes_inside hm' hi]

theorem readByte_writeTo_congr {m m' : Memory} (hm : Memory.wf m) (hm' : Memory.wf m') {d j : Nat} {b : Buffer}
    (hj : InSpan d b.size j) : readByte (b.writeTo m d) j = readByte (b.writeTo m' d) j := by
  cases b with
  | words ws =>
    simp only [Buffer.writeTo, writeWords_eq_writeBytes]
    exact readByte_writeBytes_congr hm hm' (by rwa [flatMap_bytesOfWord_length])
  | bytes bs => exact readByte_writeBytes_congr hm hm' hj

/-- What one can see of the outcomes: the fault, or the status, the draws, OLEN, and the bytes of an output region. -/
theorem SameOutcome.seen {s u s' u' : State} {d : Nat} (h : SameOutcome s u d s' u') (hs : Memory.wf s.mem)
    (hu : Memory.wf u.mem) :
    (∃ f, s' = { s with fault := some f } ∧ u' = { u with fault := some f }) ∨
      (s'.fault = s.fault ∧ u'.fault = u.fault ∧ s'.status = u'.status ∧ s'.status ≠ .unwritten ∧ s'.draws = u'.draws ∧
        ((s'.olen = s.olen ∧ u'.olen = u.olen) ∨ (s'.olen = u'.olen ∧ s'.olen ≠ .unwritten)) ∧
        ∃ k, (∀ j, InSpan d k j → readByte s'.mem j = readByte u'.mem j) ∧
          SameOutside s.mem s'.mem d k ∧ SameOutside u.mem u'.mem d k) := by
  cases h with
  | fault f => exact .inl ⟨f, rfl, rfl⟩
  | status c k =>
    have hempty (j : Nat) : ¬InSpan d 0 j := fun hj => absurd hj.2 (not_lt.2 hj.1)
    exact .inr ⟨rfl, rfl, rfl, nofun, rfl, .inl ⟨rfl, rfl⟩, 0, fun j hj => absurd hj (hempty j), fun _ _ => rfl,
      fun _ _ => rfl⟩
  | written r =>
    obtain ⟨out, count, k⟩ := r
    have hin (j : Nat) (hj : InSpan d out.size j) : readByte (out.writeTo s.mem d) j = readByte (out.writeTo u.mem d) j :=
      readByte_writeTo_congr hs hu hj
    have hout (m : Memory) : SameOutside m (out.writeTo m d) d out.size := fun _ hj => readByte_writeTo_outside m d out hj
    cases count with
    | none => exact .inr ⟨rfl, rfl, rfl, nofun, rfl, .inl ⟨rfl, rfl⟩, out.size, hin, hout s.mem, hout u.mem⟩
    | some m => exact .inr ⟨rfl, rfl, rfl, nofun, rfl, .inr ⟨rfl, nofun⟩, out.size, hin, hout s.mem, hout u.mem⟩

theorem withDraws_of_eq {s u : State} (hd : s.draws = u.draws) : ({ u with draws := s.draws } : State) = u := by rw [hd]

/-- Validation looks at the checks' results and the count of draws only. -/
theorem validate_sameOutcome {s u : State} (hd : s.draws = u.draws) (nb lb : Bool) (d : Nat) :
    (validate nb lb s = none ∧ validate nb lb u = none) ∨
      ∃ s' u', validate nb lb s = some s' ∧ validate nb lb u = some u' ∧ SameOutcome s u d s' u' := by
  have same (c : Status) : SameOutcome s u d (complete c s) (complete c u) := by
    have h : SameOutcome s u d (complete c s) (complete c { u with draws := s.draws }) := .status c s.draws
    rwa [withDraws_of_eq hd] at h
  have drawn : SameOutcome s u d (completeDrawn s) (completeDrawn u) := by
    unfold completeDrawn
    rw [← hd]
    exact .status _ _
  match nb, lb with
  | true, true => exact .inr ⟨_, _, rfl, rfl, drawn⟩
  | true, false => exact .inr ⟨_, _, rfl, rfl, same _⟩
  | false, true => exact .inr ⟨_, _, rfl, rfl, same _⟩
  | false, false => exact .inl ⟨rfl, rfl⟩

/-- The commit looks at the operands, the computed output and the parameters only. -/
theorem commit_sameOutcome {s u : State} (hp : s.platform = u.platform) (c : Command) (o : Operands) (r : Computed) :
    SameOutcome s u o.dst (commit c o r s) (commit c o r u) := by
  rcases hc : checkRegion s.platform o.dst r.output.size with _ | f
  · have hout := checkRegion_eq_none.1 hc
    rcases hover : regionsOverlap o.src (c.inputSize o.len) o.dst r.output.size with _ | _
    · have hdisjoint := regionsOverlap_eq_false.1 hover
      rw [commit_of_disjoint hout hdisjoint, commit_of_disjoint (hp ▸ hout) hdisjoint]
      exact .written r
    · obtain ⟨j, hj, hj'⟩ := regionsOverlap_eq_true.1 hover
      rw [commit_of_overlap hout hj hj', commit_of_overlap (hp ▸ hout) hj hj']
      exact .fault _
  · rw [commit_of_output_fault hc, commit_of_output_fault (hp ▸ hc)]
    exact .fault f

theorem transform_sameOutcome {s u : State} {c : Command} {o : Operands} (hp : s.platform = u.platform)
    (hc : c.compute s.mem o.src o.len s.draws = c.compute u.mem o.src o.len u.draws) :
    SameOutcome s u o.dst (transform c o s) (transform c o u) := by
  rcases hr : checkRegion s.platform o.src (c.inputSize o.len) with _ | f
  · have hin := checkRegion_eq_none.1 hr
    rw [transform_of_usable hin, transform_of_usable (hp ▸ hin), ← hc]
    exact commit_sameOutcome hp c o _
  · rw [transform_of_input_fault hr, transform_of_input_fault (hp ▸ hr)]
    exact .fault f

theorem runCommand_sameOutcome {i : Instr} {s u : State} {a b n : Word32} (hs : OperandsWritten s a b n)
    (hu : OperandsWritten u a b n) (hp : s.platform = u.platform) (hd : s.draws = u.draws)
    (hbytes : ∀ j, InSpan a.toNat (inputBytes n.toNat i) j → readByte s.mem j = readByte u.mem j) :
    SameOutcome s u b.toNat (runCommand (commandOf i) s) (runCommand (commandOf i) u) := by
  rcases validate_sameOutcome hd (nullBad a.toNat b.toNat) ((commandOf i).lenBad s.platform n.toNat) b.toNat with
    ⟨hvs, hvu⟩ | ⟨s', u', hvs, hvu, hsame⟩
  · rw [runCommand_of_passed hs hvs, runCommand_of_passed hu (hp ▸ hvu)]
    split
    · have hempty : SameOutcome s u b.toNat (complete .success (recordCount (some 0) s))
          (complete .success (recordCount (some 0) { u with draws := s.draws })) :=
        .written ⟨.bytes [], some 0, s.draws⟩
      rwa [withDraws_of_eq hd] at hempty
    · have hcompute : (commandOf i).compute s.mem a.toNat n.toNat s.draws =
          (commandOf i).compute u.mem a.toNat n.toNat u.draws := by rw [compute_congr hbytes, hd]
      exact transform_sameOutcome (o := ⟨a.toNat, b.toNat, n.toNat⟩) hp hcompute
  · rwa [runCommand_of_validate hs hvs, runCommand_of_validate hu (hp ▸ hvu)]

/-! ### The obligations -/

/-- Settles O22, from the two ways a command can end. -/
theorem everyCommandEndsInStatusOrFault : Obligations.EveryCommandEndsInStatusOrFault :=
  fun i s => ⟨_, exec_eq i s, runCommand_fault_or_status i s⟩

/-- Settles O23: a command writes OLEN, STATUS, the fault record, memory and the count of draws at most. -/
theorem commandsKeepOperandRegisters : Obligations.CommandsKeepOperandRegisters := by
  intro i s t h
  obtain ⟨_, _, _, _, _, hframe, -⟩ := runCommand_frame i s
  rw [eq_runCommand_of_exec h, hframe]
  exact ⟨rfl, rfl, rfl, rfl, rfl, rfl, rfl⟩

/-- Settles O24: only Success writes memory, and what is written takes the region that the input determines. -/
theorem commandsWriteOnlyTheirOutput : Obligations.CommandsWriteOnlyTheirOutput := by
  refine ⟨fun i s t a b n ho h => ?_, fun i s t h hfail => ?_⟩
  · obtain rfl := eq_runCommand_of_exec h
    rcases runCommand_mem i s with ⟨hmem, -⟩ | ⟨-, -, hout⟩
    · exact fun j _ => by rw [hmem]
    · exact hout a b n ho
  · obtain rfl := eq_runCommand_of_exec h
    rcases runCommand_mem i s with hkept | ⟨hfault, hstatus, -⟩
    · exact hkept
    · exact (hfail.elim (· hfault) (· hstatus)).elim

/-- Settles O26: a fault leaves STATUS as it was, and every status reported is 0, 1 or 2. -/
theorem genericIsNeverProduced : Obligations.GenericIsNeverProduced := by
  intro i s t hs h
  obtain rfl := eq_runCommand_of_exec h
  rcases runCommand_fault_or_status i s with ⟨f, hf⟩ | ⟨-, hst | hst | hst⟩
  · rwa [hf]
  · simp [hst]
  · simp [hst]
  · simp [hst]

/-- Settles O28: each combination of the two checks ends the command in its own way. -/
theorem validationFailureReportsStatus : Obligations.ValidationFailureReportsStatus := by
  refine fun i s a b n ho => ⟨fun hnull hlen => ?_, fun hnull hlen => ?_, fun hnull hlen => ?_⟩
  · have hexec := exec_of_validate ho ((nullBad_eq_true a b).2 hnull) ((commandOf_lenBad i _ _).2 hlen) rfl
    rcases completeDrawn_cases s with hdrawn | hdrawn
    · exact .inl (hexec.trans (congrArg _ hdrawn))
    · exact .inr (hexec.trans (congrArg _ hdrawn))
  · exact exec_of_validate ho ((nullBad_eq_true a b).2 hnull) (commandOf_lenBad_eq_false.2 hlen) rfl
  · exact exec_of_validate ho (nullBad_eq_false.2 hnull) ((commandOf_lenBad i _ _).2 hlen) rfl

/-- Settles O30: each premise decides the region check or the overlap check that its fault comes from. -/
theorem memoryFaultsComeInOrder : Obligations.MemoryFaultsComeInOrder := by
  intro i s a b n h
  have ⟨_, _, _, hlen⟩ := h
  have hpos := inputBytes_pos hlen
  exact ⟨fun hrange => exec_of_input_fault h (checkRegion_of_range hpos hrange),
    fun j hfits hj => exec_of_input_fault h (checkRegion_of_bus hfits hj),
    fun hin hout hrange => exec_of_output_fault h hin (checkRegion_of_range hout hrange),
    fun j hin hfits hj => exec_of_output_fault h hin (checkRegion_of_bus hfits hj),
    fun j hin hout hj hj' => exec_of_overlap h hin hout hj hj'⟩

/-- Settles O31: stage by stage, the two runs take the same branch with the same data. -/
theorem outcomeDependsOnlyOnInput : Obligations.OutcomeDependsOnlyOnInput := by
  intro i s u a b n hms hmu hs hu hp hd hbytes
  exact ⟨_, _, exec_eq i s, exec_eq i u, (runCommand_sameOutcome hs hu hp hd hbytes).seen hms hmu⟩

theorem encode_toNat_bounds (i : Instr) : 1 ≤ (encode i).toNat ∧ (encode i).toNat ≤ 6 := by cases i <;> decide

/-- Settles O1: the six words are the commands' own, and every command's word lies from 1 to 6. -/
theorem decodeAcceptsExactlySixWords : Obligations.DecodeAcceptsExactlySixWords := by
  refine ⟨decodeWord_encode .deltaEncode, decodeWord_encode .deltaDecode, decodeWord_encode .zigzagEncode,
    decodeWord_encode .zigzagDecode, decodeWord_encode .varintEncode, decodeWord_encode .varintDecode, fun v hv => ?_⟩
  refine exists_decodeWord_error ?_
  rintro i rfl
  have := encode_toNat_bounds i
  omega

/-- Settles O27: the operands are read first and in this order. -/
theorem unwrittenOperandFaultsInOrder : Obligations.UnwrittenOperandFaultsInOrder := by
  refine fun i s => ⟨fun hsrc => exec_of_operand_fault ?_ i, fun hsrc hdst => exec_of_operand_fault ?_ i,
    fun hsrc hdst hlen => exec_of_operand_fault ?_ i⟩
  · simp [readOperands, hsrc]
  · rcases ha : s.src with _ | a
    · exact absurd ha hsrc
    · simp [readOperands, ha, hdst]
  · rcases ha : s.src with _ | a
    · exact absurd ha hsrc
    rcases hb : s.dst with _ | b
    · exact absurd hb hdst
    simp [readOperands, ha, hb, hlen]

/-- Settles O29: VARINT_EMPTY decides the length check, and past it an empty varint input ends the command. -/
theorem emptyVarintInputByParameter : Obligations.EmptyVarintInputByParameter := by
  intro i s a b hi ho ha hb
  have hnull : nullBad a.toNat b.toNat = false := nullBad_eq_false.2 (not_or.2 ⟨ha, hb⟩)
  have hempty := lengthTooShort_zero_iff hi s.platform
  refine ⟨fun haccept => ?_, fun hreject => ?_⟩
  · have hlen : (commandOf i).lenBad s.platform 0 = false :=
      commandOf_lenBad_eq_false.2 fun hshort => VarintEmpty.noConfusion (haccept.symm.trans (hempty.1 hshort))
    rw [exec_eq, runCommand_of_passed ho (validate_none.2 ⟨hnull, hlen⟩), hi]
    rfl
  · exact exec_of_validate ho hnull ((commandOf_lenBad i _ _).2 (hempty.2 hreject)) rfl

end Sys2Proof.Machine

/-! ## The delta coder (spec/41_delta.md)

The coders' elements are said once as functions on sequences (`deltaEncodeSeq_getElem_succ`, `deltaDecodeSeq_getElem_succ`).
`exec_of_ready_words` says what a command that computes words leaves in memory; together they give what the two commands
write. -/

namespace Sys2Proof.Machine

/-! ### The elements of a delta-encoded sequence (R140) -/

theorem differences_getElem {prev : Word32} {ws : List Word32} {i : Nat} (h : i < ws.length) :
    (differences prev ws)[i]'(by simpa) = wrap32 (ws[i].toInt - ((prev :: ws)[i]'(Nat.lt_succ_of_lt h)).toInt) := by
  induction ws generalizing prev i with
  | nil => cases h
  | cons w ws ih =>
    cases i with
    | zero => rfl
    | succ i => exact ih (Nat.lt_of_succ_lt_succ h)

@[simp] theorem deltaEncodeSeq_getElem_zero {ws : List Word32} (h : 0 < (deltaEncodeSeq ws).length) :
    (deltaEncodeSeq ws)[0] = ws[0]'(by simpa using h) := by
  cases ws with
  | nil => cases h
  | cons w ws => rfl

theorem deltaEncodeSeq_getElem_succ {ws : List Word32} {i : Nat} (h : i + 1 < ws.length) :
    (deltaEncodeSeq ws)[i + 1]'(by simpa) = wrap32 (ws[i + 1].toInt - ws[i].toInt) := by
  cases ws with
  | nil => cases h
  | cons w ws => exact differences_getElem (Nat.lt_of_succ_lt_succ h)

/-! ### Wrapping (R140)

Wrapping keeps differences, and undoes the signed and the unsigned reading of a word alike. -/

theorem wrap32_sub (x y : Int) : wrap32 (x - y) = wrap32 x - wrap32 y := by
  simp only [wrap32, Int.sub_eq_add_neg, BitVec.ofInt_add, BitVec.ofInt_neg, BitVec.sub_eq_add_neg]

@[simp] theorem wrap32_toInt (w : Word32) : wrap32 w.toInt = w := BitVec.ofInt_toInt

@[simp] theorem wrap32_toNat (w : Word32) : wrap32 w.toNat = w := by
  rw [wrap32, BitVec.ofInt_natCast, BitVec.ofNat_toNat, BitVec.setWidth_eq]

/-- Reading the operands signed or unsigned gives the same wrapped difference, as R140 infers. -/
theorem wrap32_toInt_sub_toInt (x y : Word32) : wrap32 (x.toInt - y.toInt) = wrap32 ((x.toNat : Int) - y.toNat) := by
  simp only [wrap32_sub, wrap32_toInt, wrap32_toNat]

/-! ### The elements of a delta-decoded sequence (R142) -/

theorem runningSums_getElem {prev : Word32} {es : List Word32} {i : Nat} (h : i < es.length) :
    (runningSums prev es)[i]'(by simpa) =
      wrap32 (((prev :: runningSums prev es)[i]'(by simpa using Nat.lt_succ_of_lt h)).toInt + es[i].toInt) := by
  induction es generalizing prev i with
  | nil => cases h
  | cons e es ih =>
    cases i with
    | zero => rfl
    | succ i => exact ih (Nat.lt_of_succ_lt_succ h)

@[simp] theorem deltaDecodeSeq_getElem_zero {es : List Word32} (h : 0 < (deltaDecodeSeq es).length) :
    (deltaDecodeSeq es)[0] = es[0]'(by simpa using h) := by
  cases es with
  | nil => cases h
  | cons e es => rfl

theorem deltaDecodeSeq_getElem_succ {es : List Word32} {i : Nat} (h : i + 1 < es.length) :
    (deltaDecodeSeq es)[i + 1]'(by simpa) =
      wrap32 (((deltaDecodeSeq es)[i]'(by simpa using Nat.lt_of_succ_lt h)).toInt + es[i + 1].toInt) := by
  cases es with
  | nil => cases h
  | cons e es => exact runningSums_getElem (Nat.lt_of_succ_lt_succ h)

/-! ### A command whose operands are in order (R234) -/

/-- A command whose operands are in order writes what it computes and reports Success. -/
theorem exec_of_ready {i : Instr} {s : State} {a b n : Word32} {r : Computed} (h : Ready i s a b n)
    (hr : (commandOf i).compute s.mem a.toNat n.toNat s.draws = r) :
    exec i s = .next (complete .success
      (recordCount r.count { s with mem := r.output.writeTo s.mem b.toNat, draws := r.draws })) := by
  obtain ⟨hv, hin, hout, hd⟩ := h
  rw [← size_compute i s.mem a.toNat n.toNat s.draws, hr] at hout hd
  rw [← commandOf_inputSize] at hin hd
  rw [exec_eq, runCommand_of_validated hv, transform_of_usable hin, hr, commit_of_disjoint hout hd]

/-- What a run of words leaves in memory: word `k` of it at `d + 4k`, and everything else as it was. -/
theorem writeWords_spec {m : Memory} (hm : Memory.wf m) (d : Nat) (ws : List Word32) :
    (∀ k (hk : k < ws.length), readWord (writeWords m d ws) (d + 4 * k) = ws[k]) ∧
      SameOutside m (writeWords m d ws) d (4 * ws.length) :=
  ⟨fun _ hk => readWord_writeWords_inside hm hk, fun _ hj => readByte_writeWords_outside hj⟩

/-- A command whose operands are in order and that computes the words `ws`, with no count and no draw, leaves them at DST and
changes nothing else but STATUS. -/
theorem exec_of_ready_words {i : Instr} {s : State} {a b n : Word32} {ws : List Word32} (hm : Memory.wf s.mem)
    (h : Ready i s a b n) (hr : (commandOf i).compute s.mem a.toNat n.toNat s.draws = ⟨.words ws, none, s.draws⟩) :
    ∃ m, exec i s = .next { s with mem := m, status := .written 0x0#32 } ∧
      (∀ k (hk : k < ws.length), readWord m (b.toNat + 4 * k) = ws[k]) ∧
      SameOutside s.mem m b.toNat (4 * ws.length) :=
  ⟨_, exec_of_ready h hr, writeWords_spec hm b.toNat ws⟩

/-! ### The obligations -/

/-- Settles O38: each element by its lemma, and wrapping forgets how the operands were read. -/
theorem deltaEncodeElements : Obligations.DeltaEncodeElements := by
  refine ⟨fun w => ⟨length_deltaEncodeSeq w, fun h => ?_, fun i h => ?_⟩, wrap32_toInt_sub_toInt⟩
  · exact List.getElem?_eq_some_iff.2 ⟨by simpa, deltaEncodeSeq_getElem_zero _⟩
  · exact List.getElem?_eq_some_iff.2 ⟨by simpa, deltaEncodeSeq_getElem_succ h⟩

/-- Settles O39: each element by its lemma, from the decoded element before it. -/
theorem deltaDecodeElements : Obligations.DeltaDecodeElements := by
  refine fun e => ⟨length_deltaDecodeSeq e, fun h => ?_, fun i h prev hprev => ?_⟩
  · exact List.getElem?_eq_some_iff.2 ⟨by simpa, deltaDecodeSeq_getElem_zero _⟩
  · obtain ⟨_, rfl⟩ := List.getElem?_eq_some_iff.1 hprev
    exact List.getElem?_eq_some_iff.2 ⟨by simpa, deltaDecodeSeq_getElem_succ h⟩

/-- Settles O32: the words at DST are those of `deltaEncodeSeq`. -/
theorem deltaEncodeWritesDifferences : Obligations.DeltaEncodeWritesDifferences := by
  intro s a b n hm h
  have ⟨⟨_, _, _, (hn : 2 ≤ n.toNat)⟩, _⟩ := h
  obtain ⟨m, hexec, hread, hout⟩ := exec_of_ready_words hm h rfl
  simp only [length_deltaEncodeSeq, readWords_length] at hread hout
  refine ⟨m, hexec, ?_, fun i h1 hi => ?_, hout⟩
  · simpa using hread 0 (by omega)
  · obtain ⟨k, rfl⟩ := Nat.exists_eq_add_of_le' h1
    rw [hread (k + 1) hi, deltaEncodeSeq_getElem_succ (by simpa using hi)]
    simp only [readWords_getElem, Nat.add_sub_cancel]

/-- Settles O33: the words at DST are those of `deltaDecodeSeq`, so the sum's first operand is the word written before. -/
theorem deltaDecodeWritesRunningSums : Obligations.DeltaDecodeWritesRunningSums := by
  intro s a b n hm h
  have ⟨⟨_, _, _, (hn : 2 ≤ n.toNat)⟩, _⟩ := h
  obtain ⟨m, hexec, hread, hout⟩ := exec_of_ready_words hm h rfl
  simp only [length_deltaDecodeSeq, readWords_length] at hread hout
  refine ⟨m, hexec, ?_, fun i h1 hi => ?_, hout⟩
  · simpa using hread 0 (by omega)
  · obtain ⟨k, rfl⟩ := Nat.exists_eq_add_of_le' h1
    rw [hread (k + 1) hi, Nat.add_sub_cancel, hread k (by omega), deltaDecodeSeq_getElem_succ (by simpa using hi)]
    simp only [readWords_getElem]

end Sys2Proof.Machine

/-! ## The zigzag mapper (spec/42_zigzag.md)

`toNat_zzEnc` and `toInt_zzDec` give the code of an integer and the integer of a code in exact arithmetic. What the two commands
write, the bit forms and the laws of the mapping follow from these two equations. -/

namespace Sys2Proof.Machine

/-! ### Wrapping an integer that fits (R9) -/

theorem toNat_wrap32 {z : Int} (h0 : 0 ≤ z) (h : z < 2 ^ 32) : ((wrap32 z).toNat : Int) = z := by
  rw [wrap32, BitVec.toNat_ofInt, Int.emod_eq_of_lt h0 (mod_cast h), Int.toNat_of_nonneg h0]

theorem toInt_wrap32 {z : Int} (h0 : -2 ^ 31 ≤ z) (h : z < 2 ^ 31) : (wrap32 z).toInt = z :=
  BitVec.toInt_ofInt_eq_self (by decide) h0 h

/-! ### The code of an integer and the integer of a code (R160, R163)

The exact results fit into a word, so wrapping does not change them. -/

theorem toNat_zzEnc (w : Word32) :
    ((zzEnc w).toNat : Int) = if 0 ≤ w.toInt then 2 * w.toInt else 2 * (-w.toInt) - 1 := by
  have hlo : -2 ^ 31 ≤ w.toInt := w.le_toInt
  have hhi : w.toInt < 2 ^ 31 := w.toInt_lt
  unfold zzEnc
  split
  · next hzero => simp [hzero, wrap32]
  · split
    · next hpos => rw [toNat_wrap32 (by omega) (by omega), if_pos hpos.le]
    · next hneg => rw [toNat_wrap32 (by omega) (by omega), if_neg (by omega)]

theorem toInt_zzDec (w : Word32) :
    (zzDec w).toInt = if w.toNat % 2 = 0 then (w.toNat : Int) / 2 else -(((w.toNat : Int) + 1) / 2) := by
  have hlt := w.isLt
  unfold zzDec
  split
  · next hzero => simp [hzero, wrap32]
  · split
    · next heven => exact toInt_wrap32 (by omega) (by omega)
    · next hodd => exact toInt_wrap32 (by omega) (by omega)

/-! ### The mappings undo each other (R166) -/

/-- The code of `a ≥ 0` is even and half of it is `a`; the code of `a < 0` is odd and one more than it is `2|a|`. -/
@[simp] theorem zzDec_zzEnc (w : Word32) : zzDec (zzEnc w) = w := by
  have hcode := toNat_zzEnc w
  apply BitVec.eq_of_toInt_eq
  rw [toInt_zzDec]
  split at hcode
  · next hnonneg => rw [if_pos (by omega)]; omega
  · next hneg => rw [if_neg (by omega)]; omega

/-- An even code gives an integer `a ≥ 0` with code `2a`, an odd one an integer `a < 0` with code `2|a| - 1`. -/
@[simp] theorem zzEnc_zzDec (w : Word32) : zzEnc (zzDec w) = w := by
  have hvalue := toInt_zzDec w
  apply BitVec.eq_of_toNat_eq
  apply Int.ofNat_inj.1
  rw [toNat_zzEnc]
  split at hvalue
  · next heven => rw [if_pos (by omega)]; omega
  · next hodd => rw [if_neg (by omega)]; omega

theorem bijective_zzEnc : Function.Bijective zzEnc :=
  Function.bijective_iff_has_inverse.2 ⟨zzDec, zzDec_zzEnc, zzEnc_zzDec⟩

theorem bijective_zzDec : Function.Bijective zzDec :=
  Function.bijective_iff_has_inverse.2 ⟨zzEnc, zzEnc_zzDec, zzDec_zzEnc⟩

/-! ### The bit forms (R161, R164)

The mask of each form is all ones or zero: by the sign of the word in R161, by its bit 0 in R164. XOR with all ones is the
complement. -/

theorem sshiftRight_31 (w : Word32) : w.sshiftRight 31 = if 0 ≤ w.toInt then 0#32 else BitVec.allOnes 32 := by
  have hlo : -2 ^ 31 ≤ w.toInt := w.le_toInt
  have hhi : w.toInt < 2 ^ 31 := w.toInt_lt
  apply BitVec.eq_of_toInt_eq
  rw [BitVec.toInt_sshiftRight, Int.shiftRight_eq_div_pow]
  split
  · simp only [BitVec.toInt_zero]; omega
  · rw [BitVec.toInt_allOnes, if_pos (by decide)]; omega

theorem signExtend_bit_zero (w : Word32) :
    (w.extractLsb' 0 1).signExtend 32 = if w.toNat % 2 = 0 then 0#32 else BitVec.allOnes 32 := by
  have hbit : (w.extractLsb' 0 1).toNat = w.toNat % 2 := BitVec.extractLsb'_toNat 0 1 w
  apply BitVec.eq_of_toInt_eq
  rw [BitVec.toInt_signExtend_of_le (by decide), BitVec.toInt_eq_toNat_cond, hbit]
  rcases Nat.mod_two_eq_zero_or_one w.toNat with heven | hodd
  · rw [heven]; rfl
  · rw [hodd]; rfl

theorem zzEnc_eq_xor (w : Word32) : zzEnc w = (w <<< 1) ^^^ (w.sshiftRight 31) := by
  have hcode := toNat_zzEnc w
  have hcond := w.toInt_eq_toNat_cond
  rw [sshiftRight_31]
  apply BitVec.eq_of_toNat_eq
  split at hcode
  · next hnonneg =>
    rw [if_pos hnonneg, BitVec.xor_zero, BitVec.toNat_shiftLeft, Nat.shiftLeft_eq]
    omega
  · next hneg =>
    rw [if_neg hneg, BitVec.xor_allOnes, BitVec.toNat_not, BitVec.toNat_shiftLeft, Nat.shiftLeft_eq]
    omega

theorem zzDec_eq_xor (w : Word32) : zzDec w = (w >>> 1) ^^^ ((w.extractLsb' 0 1).signExtend 32) := by
  have hvalue := toInt_zzDec w
  have hcond := (zzDec w).toInt_eq_toNat_cond
  rw [signExtend_bit_zero]
  apply BitVec.eq_of_toNat_eq
  split at hvalue
  · next heven =>
    rw [if_pos heven, BitVec.xor_zero, BitVec.toNat_ushiftRight, Nat.shiftRight_eq_div_pow]
    omega
  · next hodd =>
    rw [if_neg hodd, BitVec.xor_allOnes, BitVec.toNat_not, BitVec.toNat_ushiftRight, Nat.shiftRight_eq_div_pow]
    omega

/-! ### Codes and magnitudes (R166) -/

theorem toNat_zzEnc_natAbs (w : Word32) :
    (zzEnc w).toNat = if 0 ≤ w.toInt then 2 * w.toInt.natAbs else 2 * w.toInt.natAbs - 1 := by
  have hcode := toNat_zzEnc w
  split at hcode
  · next hnonneg => rw [if_pos hnonneg]; omega
  · next hneg => rw [if_neg hneg]; omega

/-- The code takes at most twice the magnitude, and at least one less than that. -/
theorem toNat_zzEnc_bounds (w : Word32) :
    2 * w.toInt.natAbs - 1 ≤ (zzEnc w).toNat ∧ (zzEnc w).toNat ≤ 2 * w.toInt.natAbs := by
  rw [toNat_zzEnc_natAbs]
  split <;> omega

/-- A value below 128 takes one byte (R181). -/
theorem length_varintEncodeValue_of_lt {w : Word32} (h : w.toNat < 128) : (varintEncodeValue w).length = 1 := by
  have hsize : Nat.size w.toNat ≤ 7 := Nat.size_le.2 h
  rw [length_varintEncodeValue, varintLength]
  omega

/-! ### The two commands (R162, R165) -/

/-- A command whose operands are in order and that computes its words element by element writes `f` of element `k` at SRC
as element `k` at DST, and changes nothing else but STATUS. -/
theorem exec_of_ready_map {i : Instr} {s : State} {a b n : Word32} {f : Word32 → Word32} (hm : Memory.wf s.mem)
    (h : Ready i s a b n) (hr : (commandOf i).compute s.mem a.toNat n.toNat s.draws =
      ⟨.words ((readWords s.mem a.toNat n.toNat).map f), none, s.draws⟩) :
    ∃ m, exec i s = .next { s with mem := m, status := .written 0x0#32 } ∧
      (∀ k < n.toNat, readWord m (b.toNat + 4 * k) = f (readWord s.mem (a.toNat + 4 * k))) ∧
      SameOutside s.mem m b.toNat (4 * n.toNat) := by
  obtain ⟨m, hexec, hread, hout⟩ := exec_of_ready_words hm h hr
  simp only [List.length_map, readWords_length, List.getElem_map, readWords_getElem] at hread hout
  exact ⟨m, hexec, hread, hout⟩

/-! ### The obligations -/

/-- Settles O34: the words at DST are the codes of `zzEnc`. -/
theorem zigzagEncodeWritesCodes : Obligations.ZigzagEncodeWritesCodes := by
  intro s a b n hm h
  obtain ⟨m, hexec, hread, hout⟩ := exec_of_ready_map hm h rfl
  exact ⟨m, hexec, fun k hk => by rw [hread k hk, toNat_zzEnc], hout⟩

/-- Settles O35: the words at DST are the values of `zzDec`. -/
theorem zigzagDecodeWritesValues : Obligations.ZigzagDecodeWritesValues := by
  intro s a b n hm h
  obtain ⟨m, hexec, hread, hout⟩ := exec_of_ready_map hm h rfl
  exact ⟨m, hexec, fun k hk => by rw [hread k hk, toInt_zzDec], hout⟩

/-- Settles O41: both bit forms, each by its lemma. -/
theorem zigzagBitForms : Obligations.ZigzagBitForms := fun w => ⟨zzEnc_eq_xor w, zzDec_eq_xor w⟩

/-- Settles O43: each mapping has the other as its inverse, and the order and the one byte follow from the code's value. -/
theorem zigzagOrdersByMagnitude : Obligations.ZigzagOrdersByMagnitude := by
  refine ⟨bijective_zzEnc, bijective_zzDec, fun a b h => ?_, fun a => ⟨fun h => ?_, fun h => ?_⟩, fun a h => ?_⟩
  · have ⟨_, ha⟩ := toNat_zzEnc_bounds a
    have ⟨hb, _⟩ := toNat_zzEnc_bounds b
    omega
  · rw [toNat_zzEnc_natAbs, if_pos h.le]
  · rw [toNat_zzEnc_natAbs, if_neg h.not_ge]
  · have ⟨_, ha⟩ := toNat_zzEnc_bounds a
    have hcode : (zzEnc a).toNat < 128 := by omega
    exact ⟨hcode, length_varintEncodeValue_of_lt hcode⟩

end Sys2Proof.Machine

/-! ## The varint coder (spec/43_varint.md)

`varintLoop_getElem?` says what each byte of an encoding holds, and `lt_varintLength_iff` how many bytes there are. On the decoder's
side, `splitGroups_complete` cuts one complete group list off the front of a stream and `toNat_wrap32_groupSum` gives its value;
`exec_of_ready_count` says what a command that reports a count leaves in the state. -/

namespace Sys2Proof.Machine

/-! ### A byte as seven payload bits under the continuation bit (R180, R185) -/

@[simp] theorem toNat_payload (b : Byte) : (b &&& 0x7F#8).toNat = b.toNat % 128 := by
  rw [BitVec.toNat_and]
  exact Nat.and_two_pow_sub_one_eq_mod b.toNat 7

theorem continues_iff (b : Byte) : continues b = true ↔ 128 ≤ b.toNat := by
  have hmsb : continues b = b.msb := (BitVec.msb_eq_getLsbD_last b).symm
  rw [hmsb, BitVec.msb_eq_decide, decide_eq_true_iff]

/-! ### The bytes of an encoding (R180, R181) -/

/-- The byte one turn of R180's loop emits when the rest of the value is `v`. -/
def groupByte (v : Nat) : Byte :=
  if v / 128 ≠ 0 then 0x80#8 ||| BitVec.ofNat 8 (v % 128) else BitVec.ofNat 8 (v % 128)

theorem varintLoop_succ (fuel v : Nat) :
    varintLoop (fuel + 1) v = groupByte v :: if v / 128 ≠ 0 then varintLoop fuel (v / 128) else [] := by
  rw [varintLoop, groupByte]
  split <;> rfl

theorem toNat_groupByte (v : Nat) : (groupByte v).toNat = (if v / 128 ≠ 0 then 128 else 0) + v % 128 := by
  have hlt : v % 128 < 128 := Nat.mod_lt v (by decide)
  have hgroup : (BitVec.ofNat 8 (v % 128)).toNat = v % 128 := Nat.mod_eq_of_lt (hlt.trans (by decide))
  unfold groupByte
  split
  · rw [BitVec.toNat_or, hgroup]
    exact (Nat.two_pow_add_eq_or_of_lt (i := 7) hlt 1).symm
  · rw [hgroup, Nat.zero_add]

theorem toNat_groupByte_mod (v : Nat) : (groupByte v).toNat % 128 = v % 128 := by
  rw [toNat_groupByte]
  split <;> omega

theorem continues_groupByte (v : Nat) : continues (groupByte v) = true ↔ v / 128 ≠ 0 := by
  rw [continues_iff, toNat_groupByte]
  split <;> omega

theorem div_128_div_pow (v j : Nat) : v / 128 / 2 ^ (7 * j) = v / 2 ^ (7 * (j + 1)) := by
  rw [Nat.div_div_eq_div_mul, Nat.mul_succ, pow_add, Nat.mul_comm]
  rfl

/-- Byte `j` holds group `j` of the value, and its bit 7 says whether anything is left above that group. -/
theorem varintLoop_getElem? {fuel v j : Nat} {b : Byte} (h : (varintLoop fuel v)[j]? = some b) :
    b.toNat % 128 = v / 2 ^ (7 * j) % 128 ∧ (continues b = true ↔ v / 2 ^ (7 * (j + 1)) ≠ 0) := by
  induction fuel generalizing v j with
  | zero => cases h
  | succ fuel ih =>
    rw [varintLoop_succ] at h
    cases j with
    | zero =>
      obtain rfl : groupByte v = b := Option.some.inj h
      exact ⟨by simpa using toNat_groupByte_mod v, continues_groupByte v⟩
    | succ j =>
      rw [List.getElem?_cons_succ] at h
      split at h
      · rw [← div_128_div_pow, ← div_128_div_pow]
        exact ih h
      · cases h

/-- A value has a byte `k > 0` exactly when something is left of it above its first `k` groups. -/
theorem lt_varintLength_iff {k : Nat} (hk : 0 < k) (w : Word32) : k < varintLength w ↔ w.toNat / 2 ^ (7 * k) ≠ 0 := by
  calc k < varintLength w
    _ ↔ ¬Nat.size w.toNat ≤ 7 * k := by unfold varintLength; omega
    _ ↔ w.toNat / 2 ^ (7 * k) ≠ 0 := by rw [Nat.size_le, ← Nat.div_eq_zero_iff_lt (Nat.two_pow_pos _)]

theorem varintEncodeValue_getElem? {w : Word32} {j : Nat} {b : Byte} (h : (varintEncodeValue w)[j]? = some b) :
    b.toNat % 128 = w.toNat / 2 ^ (7 * j) % 128 ∧ (continues b = true ↔ j + 1 < varintLength w) := by
  rw [lt_varintLength_iff j.succ_pos]
  exact varintLoop_getElem? h

theorem varintLength_pos (w : Word32) : 1 ≤ varintLength w := le_max_left 1 _

theorem varintLength_le_five (w : Word32) : varintLength w ≤ 5 := by
  have hsize : Nat.size w.toNat ≤ 32 := Nat.size_le.2 w.isLt
  unfold varintLength
  omega

/-- The last of several bytes holds the value's top group, which is not 0 (R181). -/
theorem getLast?_varintEncodeValue_ne_zero {w : Word32} (h : 1 < varintLength w) :
    (varintEncodeValue w).getLast? ≠ some 0x00#8 := by
  intro hlast
  rw [List.getLast?_eq_getElem?, length_varintEncodeValue] at hlast
  obtain ⟨k, hk⟩ := Nat.exists_eq_add_of_le' h.le
  have hkpos : 0 < k := by omega
  rw [hk, Nat.add_sub_cancel] at hlast
  have htop := (lt_varintLength_iff hkpos w).1 (by omega)
  have hend := mt (lt_varintLength_iff k.succ_pos w).2 (by omega)
  rw [Nat.mul_succ, pow_add, ← Nat.div_div_eq_div_mul] at hend
  have hgroup : 0 = w.toNat / 2 ^ (7 * k) % 128 := (varintEncodeValue_getElem? hlast).1
  omega

/-! ### The split of a stream (R185, R186, R189) -/

theorem splitGroups_append_of_continues {front : List Byte} (h : ∀ b ∈ front, continues b = true) (grp rest : List Byte) :
    splitGroups grp (front ++ rest) = splitGroups (grp ++ front) rest := by
  induction front generalizing grp with
  | nil => rw [List.nil_append, List.append_nil]
  | cons b front ih =>
    have ⟨hb, hfront⟩ := List.forall_mem_cons.1 h
    rw [List.cons_append, splitGroups, if_pos hb, ih hfront, List.append_assoc, List.singleton_append]

/-- A complete group list at the front of a stream is one value, and the rest is split on its own. -/
theorem splitGroups_complete {g : List Byte} (h : CompleteGroup g) (rest : List Byte) :
    splitGroups [] (g ++ rest) = g :: splitGroups [] rest := by
  obtain ⟨front, last, rfl, hfront, hlast⟩ := h
  rw [List.append_assoc, splitGroups_append_of_continues hfront, List.nil_append, List.singleton_append, splitGroups,
    if_neg (by simp [hlast])]

/-- Bytes with bit 7 set at the end of a stream complete no value. -/
theorem splitGroups_append_tail {tail : List Byte} (h : ∀ b ∈ tail, continues b = true) (grp bs : List Byte) :
    splitGroups grp (bs ++ tail) = splitGroups grp bs := by
  induction bs generalizing grp with
  | nil => simpa [splitGroups] using splitGroups_append_of_continues h grp []
  | cons b bs ih => simp only [List.cons_append, splitGroups, ih]

/-! ### The value of a complete group list (R187, R190) -/

/-- The sum of a list's payloads, each shifted by seven bits more than the one before. -/
def payloadSum (g : List Byte) : Nat := g.foldr (fun b acc => b.toNat % 128 + 128 * acc) 0

@[simp] theorem payloadSum_nil : payloadSum [] = 0 := rfl

@[simp] theorem payloadSum_cons (b : Byte) (g : List Byte) : payloadSum (b :: g) = b.toNat % 128 + 128 * payloadSum g := rfl

theorem groupSum_eq (j : Nat) (g : List Byte) : groupSum j g = payloadSum g * 2 ^ (7 * j) := by
  induction g generalizing j with
  | nil => exact (Nat.zero_mul _).symm
  | cons b g ih =>
    rw [groupSum, ih, toNat_payload, payloadSum_cons, Nat.mul_succ, pow_add]
    ring

theorem payloadSum_lt (g : List Byte) : payloadSum g < 128 ^ g.length := by
  induction g with
  | nil => decide
  | cons b g ih =>
    rw [payloadSum_cons, List.length_cons, Nat.pow_succ]
    omega

theorem groupsFit_iff (g : List Byte) :
    groupsFit g = true ↔ g.length ≤ 4 ∨ (g.length = 5 ∧ (g.getD 4 0#8).toNat % 128 ≤ 0x0F) := by
  simp only [groupsFit, toNat_payload, Bool.or_eq_true, Bool.and_eq_true, decide_eq_true_eq]

/-- Where the groups fit, the sum is below 2^32, so that wrapping does not change it. -/
theorem payloadSum_lt_of_groupsFit {g : List Byte} (h : groupsFit g = true) : payloadSum g < 2 ^ 32 := by
  rcases (groupsFit_iff g).1 h with hlen | ⟨hlen, hfifth⟩
  · calc payloadSum g
      _ < 128 ^ g.length := payloadSum_lt g
      _ ≤ 128 ^ 4 := Nat.pow_le_pow_right (by decide) hlen
      _ ≤ 2 ^ 32 := by decide
  · match g, hlen with
    | [b0, b1, b2, b3, b4], _ =>
      replace hfifth : b4.toNat % 128 ≤ 0x0F := hfifth
      simp only [payloadSum_cons, payloadSum_nil]
      omega

theorem toNat_wrap32_groupSum {g : List Byte} (h : groupsFit g = true) :
    (wrap32 (groupSum 0 g : Nat)).toNat = payloadSum g := by
  have hlt := payloadSum_lt_of_groupsFit h
  rw [groupSum_eq, Nat.mul_zero, pow_zero, Nat.mul_one]
  exact Int.ofNat_inj.1 (toNat_wrap32 (by omega) (by omega))

/-! ### Decoding a stream that begins with a complete value -/

theorem varintDecodeSeq_of_fit {g : List Byte} (hg : CompleteGroup g) (h : groupsFit g = true) (k : Nat) (rest : List Byte) :
    varintDecodeSeq k (g ++ rest) =
      (wrap32 (groupSum 0 g : Nat) :: (varintDecodeSeq k rest).1, (varintDecodeSeq k rest).2) := by
  rw [varintDecodeSeq, splitGroups_complete hg, groupValues, if_pos h]
  rfl

theorem varintDecodeSeq_of_overlong {g : List Byte} (hg : CompleteGroup g) (h : ¬groupsFit g = true) (k : Nat)
    (rest : List Byte) :
    varintDecodeSeq k (g ++ rest) =
      (Config.freeWord k :: (varintDecodeSeq (k + 1) rest).1, (varintDecodeSeq (k + 1) rest).2) := by
  rw [varintDecodeSeq, splitGroups_complete hg, groupValues, if_neg h]
  rfl

theorem endBytes_le_length (bs : List Byte) : endBytes bs ≤ bs.length := List.length_filter_le _ bs

/-! ### A command that reports a count (R119, R234) -/

/-- A command whose operands are in order and that computes a count writes its output, and the count to OLEN. -/
theorem exec_of_ready_count {i : Instr} {s : State} {a b n : Word32} {out : Buffer} {c d : Nat} (h : Ready i s a b n)
    (hr : (commandOf i).compute s.mem a.toNat n.toNat s.draws = ⟨out, some c, d⟩) :
    exec i s = .next { s with
      mem := out.writeTo s.mem b.toNat, status := .written 0x0#32, draws := d, olen := .written (BitVec.ofNat 32 c) } := by
  have hwrap : wrap32 c = BitVec.ofNat 32 c := BitVec.ofInt_natCast 32 c
  rw [exec_of_ready h hr, ← hwrap]
  rfl

/-- A usable region that does not start at address 0 is smaller than the address space (R7). -/
theorem size_lt_of_usable {p : Platform} {a k : Nat} (hp : p.wf = true) (ha : a ≠ 0) (h : Usable p a k) : k < 2 ^ 32 := by
  have haddr : p.addrW ≤ 32 := by
    simp only [Platform.wf, Bool.and_eq_true, decide_eq_true_eq] at hp
    exact hp.1.2
  have hpow : 2 ^ p.addrW ≤ 2 ^ 32 := Nat.pow_le_pow_right (by decide) haddr
  rcases h with rfl | ⟨hrange, -⟩
  · decide
  · omega

/-! ### The obligations -/

/-- Settles O36: the bytes at DST are those of `varintEncodeSeq`, whose number is the sum of the byte counts. -/
theorem varintEncodeWritesStream : Obligations.VarintEncodeWritesStream := by
  intro s a b n hp hm h
  have ⟨⟨_, _, hb, _⟩, _, (hout : Usable s.platform b.toNat ((readWords s.mem a.toNat n.toNat).map varintLength).sum), _⟩ := h
  have hexec := exec_of_ready_count h rfl
  rw [← length_varintEncodeSeq] at hout ⊢
  exact ⟨_, hexec, size_lt_of_usable hp (BitVec.toNat_ne_iff_ne.2 hb) hout, readBytes_writeBytes hm _ _,
    fun _ hj => readByte_writeBytes_outside hj⟩

/-- Settles O37: the words at DST are those of `varintDecodeSeq`, whose number is that of the end bytes. -/
theorem varintDecodeWritesValues : Obligations.VarintDecodeWritesValues := by
  intro s a b n hm h
  have hexec := exec_of_ready_count h rfl
  have hcount : (varintDecodeSeq s.draws (readBytes s.mem a.toNat n.toNat)).1.length ≤ n.toNat := by
    simpa using endBytes_le_length (readBytes s.mem a.toNat n.toNat)
  rw [← length_varintDecodeSeq s.draws]
  exact ⟨_, _, hexec, hcount.trans_lt n.isLt, readWords_writeWords hm _ _, fun _ hj => readByte_writeWords_outside hj⟩

/-- Settles O44: the bytes by `varintEncodeValue_getElem?`, their number by `lt_varintLength_iff`. -/
theorem varintBytesHoldGroups : Obligations.VarintBytesHoldGroups := by
  intro w
  rw [length_varintEncodeValue]
  exact ⟨varintLength_pos w, fun _ hk => lt_varintLength_iff hk w, fun _ _ => varintEncodeValue_getElem?⟩

/-- Settles O45: each value takes one to five bytes, and a sequence the sum of its values' counts. -/
theorem varintByteCount : Obligations.VarintByteCount := by
  refine ⟨fun w => ⟨length_varintEncodeValue w, varintLength_pos w, varintLength_le_five w,
    getLast?_varintEncodeValue_ne_zero⟩, fun ws => ⟨length_varintEncodeSeq ws, ?_, ?_⟩⟩
  · rw [length_varintEncodeSeq]
    simpa using List.length_le_sum_of_one_le (ws.map varintLength) (by simpa using fun w _ => varintLength_pos w)
  · rw [length_varintEncodeSeq, Nat.mul_comm]
    simpa using List.sum_le_card_nsmul (ws.map varintLength) 5 (by simpa using fun w _ => varintLength_le_five w)

/-- Settles O46: the value is the wrapped sum of the groups, which wrapping leaves as it is. -/
theorem completeValueDecodesExactly : Obligations.CompleteValueDecodesExactly := by
  intro k g rest hg hshort
  have hfit := (groupsFit_iff g).2 hshort
  exact ⟨_, toNat_wrap32_groupSum hfit, varintDecodeSeq_of_fit hg hfit k rest⟩

/-- Settles O47: the value is the draw `k`, and the rest takes the draws from `k + 1` on. -/
theorem overlongValueKeepsFraming : Obligations.OverlongValueKeepsFraming := by
  intro k g rest hg hlong
  have hover : ¬groupsFit g = true := by
    rw [groupsFit_iff]
    omega
  exact ⟨_, varintDecodeSeq_of_overlong hg hover k rest⟩

/-- Settles O48: the split drops the tail, whether or not the stream before it ends a value. -/
theorem truncatedTailIsDropped : Obligations.TruncatedTailIsDropped := fun k bs _ htail _ =>
  congrArg (groupValues k) (splitGroups_append_tail htail [] bs)

/-- Settles O49: one value for each end byte, which are some of the stream's bytes. -/
theorem decodedCountIsEndBytes : Obligations.DecodedCountIsEndBytes := fun k bs =>
  ⟨length_varintDecodeSeq k bs, endBytes_le_length bs⟩

end Sys2Proof.Machine

/-! ## The pipeline and the round trips (spec/44_pipeline.md)

Each coder undoes the other: wrapped sums undo wrapped differences (R213), `zzDec` undoes `zzEnc` (R214), and an encoding is one
complete group list that fits and whose payloads add up to the value (R215). On the machine, `Transforms i x y c` says what the
command `i` makes of a buffer `x` whatever the state, `Held` that a state holds a buffer in a usable region, and
`exec_of_transforms` that the command takes the one held buffer to the other. The pipeline is a chain of six such steps (R217). -/

namespace Sys2Proof.Machine

/-! ### The delta coders undo each other (R213) -/

theorem wrap32_add (x y : Int) : wrap32 (x + y) = wrap32 x + wrap32 y := BitVec.ofInt_add x y

theorem runningSums_differences (prev : Word32) (ws : List Word32) : runningSums prev (differences prev ws) = ws := by
  induction ws generalizing prev with
  | nil => rfl
  | cons w ws ih =>
    have hw : wrap32 (prev.toInt + (wrap32 (w.toInt - prev.toInt)).toInt) = w := by
      simp only [wrap32_add, wrap32_sub, wrap32_toInt, add_sub_cancel]
    rw [differences, runningSums, hw, ih]

theorem differences_runningSums (prev : Word32) (es : List Word32) : differences prev (runningSums prev es) = es := by
  induction es generalizing prev with
  | nil => rfl
  | cons e es ih =>
    have he : wrap32 ((wrap32 (prev.toInt + e.toInt)).toInt - prev.toInt) = e := by
      simp only [wrap32_add, wrap32_sub, wrap32_toInt, add_sub_cancel_left]
    rw [runningSums, differences, he, ih]

@[simp] theorem deltaDecodeSeq_deltaEncodeSeq (ws : List Word32) : deltaDecodeSeq (deltaEncodeSeq ws) = ws := by
  cases ws with
  | nil => rfl
  | cons w ws => exact congrArg (w :: ·) (runningSums_differences w ws)

@[simp] theorem deltaEncodeSeq_deltaDecodeSeq (es : List Word32) : deltaEncodeSeq (deltaDecodeSeq es) = es := by
  cases es with
  | nil => rfl
  | cons e es => exact congrArg (e :: ·) (differences_runningSums e es)

/-! ### The zigzag mappings undo each other on sequences (R214) -/

theorem map_zzDec_map_zzEnc (ws : List Word32) : (ws.map zzEnc).map zzDec = ws := by
  simp [Function.comp_def]

theorem map_zzEnc_map_zzDec (ws : List Word32) : (ws.map zzDec).map zzEnc = ws := by
  simp [Function.comp_def]

/-! ### Decoding an encoding (R215)

The encoding of a value is a complete group list, its groups fit, and its payloads add up to the value. -/

theorem completeGroup_singleton {b : Byte} (h : continues b = false) : CompleteGroup [b] :=
  ⟨[], b, rfl, by simp, h⟩

theorem completeGroup_cons {b : Byte} {g : List Byte} (hb : continues b = true) (hg : CompleteGroup g) :
    CompleteGroup (b :: g) := by
  obtain ⟨front, last, rfl, hfront, hlast⟩ := hg
  exact ⟨b :: front, last, rfl, List.forall_mem_cons.2 ⟨hb, hfront⟩, hlast⟩

/-- Where the turns are enough for the value, the loop ends at the byte that leaves nothing above it. -/
theorem completeGroup_varintLoop {fuel v : Nat} (h : v < 128 ^ (fuel + 1)) : CompleteGroup (varintLoop (fuel + 1) v) := by
  induction fuel generalizing v with
  | zero =>
    have hlast : ¬v / 128 ≠ 0 := by omega
    rw [varintLoop_succ, if_neg hlast]
    exact completeGroup_singleton (by simpa [hlast] using continues_groupByte v)
  | succ fuel ih =>
    rw [varintLoop_succ]
    split
    · next hmore => exact completeGroup_cons ((continues_groupByte v).2 hmore) (ih (Nat.div_lt_of_lt_mul (by omega)))
    · next hlast => exact completeGroup_singleton (by simpa [hlast] using continues_groupByte v)

/-- Where the turns are enough for the value, no group of it is lost. -/
theorem payloadSum_varintLoop {fuel v : Nat} (h : v < 128 ^ fuel) : payloadSum (varintLoop fuel v) = v := by
  induction fuel generalizing v with
  | zero => exact (Nat.lt_one_iff.1 h).symm
  | succ fuel ih =>
    rw [varintLoop_succ, payloadSum_cons, toNat_groupByte_mod]
    split
    · rw [ih (Nat.div_lt_of_lt_mul (by omega))]
      omega
    · rw [payloadSum_nil]
      omega

theorem toNat_lt_five_groups (w : Word32) : w.toNat < 128 ^ 5 := w.isLt.trans (by decide)

theorem completeGroup_varintEncodeValue (w : Word32) : CompleteGroup (varintEncodeValue w) :=
  completeGroup_varintLoop (toNat_lt_five_groups w)

/-- The fifth group of a word is its top four bits. -/
theorem groupsFit_varintEncodeValue (w : Word32) : groupsFit (varintEncodeValue w) = true := by
  have hlen := length_varintEncodeValue w
  have hfive := varintLength_le_five w
  rw [groupsFit_iff]
  rcases Nat.lt_or_ge 4 (varintLength w) with hlong | hshort
  · have hfifth : 4 < (varintEncodeValue w).length := by omega
    obtain ⟨hgroup, -⟩ := varintEncodeValue_getElem? (List.getElem?_eq_getElem hfifth)
    have hlt := w.isLt
    refine .inr ⟨by omega, ?_⟩
    rw [List.getD_eq_getElem _ _ hfifth, hgroup]
    omega
  · exact .inl (by omega)

theorem wrap32_groupSum_varintEncodeValue (w : Word32) : wrap32 (groupSum 0 (varintEncodeValue w) : Nat) = w :=
  BitVec.eq_of_toNat_eq <|
    (toNat_wrap32_groupSum (groupsFit_varintEncodeValue w)).trans (payloadSum_varintLoop (toNat_lt_five_groups w))

@[simp] theorem varintDecodeSeq_varintEncodeSeq (k : Nat) (ws : List Word32) :
    varintDecodeSeq k (varintEncodeSeq ws) = (ws, k) := by
  induction ws with
  | nil => rfl
  | cons w ws ih =>
    have hcons : varintEncodeSeq (w :: ws) = varintEncodeValue w ++ varintEncodeSeq ws := List.flatMap_cons
    rw [hcons, varintDecodeSeq_of_fit (completeGroup_varintEncodeValue w) (groupsFit_varintEncodeValue w), ih,
      wrap32_groupSum_varintEncodeValue]

/-! ### A buffer in memory -/

/-- The number of elements of the buffer: what LEN holds for it (R36). -/
def Buffer.count : Buffer → Nat
  | .words ws => ws.length
  | .bytes bs => bs.length

theorem size_words {ws : List Word32} {n : Nat} (h : ws.length = n) : (Buffer.words ws).size = 4 * n := congrArg (4 * ·) h

/-- Memory holds the elements of the buffer from address `d` on. -/
def Buffer.At (m : Memory) (d : Nat) : Buffer → Prop
  | .words ws => readWords m d ws.length = ws
  | .bytes bs => readBytes m d bs.length = bs

theorem at_writeTo {m : Memory} (hm : Memory.wf m) (d : Nat) (x : Buffer) : x.At (x.writeTo m d) d := by
  cases x with
  | words ws => exact readWords_writeWords hm d ws
  | bytes bs => exact readBytes_writeBytes hm d bs

theorem at_readWords (m : Memory) (d n : Nat) : (Buffer.words (readWords m d n)).At m d :=
  congrArg (readWords m d) (readWords_length m d n)

/-- On the platform `p`, the state holds the buffer `x` of `k` bytes at the non-null address `a`, in a usable region. -/
structure Held (p : Platform) (s : State) (a : Word32) (k : Nat) (x : Buffer) : Prop where
  platform : s.platform = p
  wf : Memory.wf s.mem
  size : x.size = k
  ne_zero : a ≠ 0#32
  usable : Usable p a.toNat k
  content : x.At s.mem a.toNat

/-! ### What each command makes of a buffer -/

/-- From the buffer `x`, wherever it lies and whatever the count of draws, the command `i` computes the buffer `y`, reports the
count `c` and takes no draw. -/
structure Transforms (i : Instr) (x y : Buffer) (c : Option Nat) : Prop where
  works : workLength i ≤ x.count
  input : inputBytes x.count i = x.size
  compute : ∀ m d k, x.At m d → (commandOf i).compute m d x.count k = ⟨y, c, k⟩

theorem transforms_deltaEncode {ws : List Word32} (h : 2 ≤ ws.length) :
    Transforms .deltaEncode (.words ws) (.words (deltaEncodeSeq ws)) none :=
  ⟨h, rfl, fun m d k (hws : readWords m d ws.length = ws) => by
    simp only [commandOf, deltaEncodeCommand, computeDeltaEncode, Buffer.count, hws]⟩

theorem transforms_zigzagEncode {ws : List Word32} (h : 1 ≤ ws.length) :
    Transforms .zigzagEncode (.words ws) (.words (ws.map zzEnc)) none :=
  ⟨h, rfl, fun m d k (hws : readWords m d ws.length = ws) => by
    simp only [commandOf, zigzagEncodeCommand, computeZigzagEncode, Buffer.count, hws]⟩

theorem transforms_varintEncode {ws : List Word32} (h : 1 ≤ ws.length) :
    Transforms .varintEncode (.words ws) (.bytes (varintEncodeSeq ws)) (some (varintEncodeSeq ws).length) :=
  ⟨h, rfl, fun m d k (hws : readWords m d ws.length = ws) => by
    simp only [commandOf, varintEncodeCommand, computeVarintEncode, Buffer.count, hws]⟩

/-- The stream of an encoding has no overlong value, so that varint_decode takes no draw. -/
theorem transforms_varintDecode {ws : List Word32} (h : 1 ≤ ws.length) :
    Transforms .varintDecode (.bytes (varintEncodeSeq ws)) (.words ws) (some ws.length) := by
  obtain ⟨-, hle, -⟩ := varintByteCount.2 ws
  exact ⟨h.trans hle, rfl, fun m d k (hbs : readBytes m d (varintEncodeSeq ws).length = varintEncodeSeq ws) => by
    simp only [commandOf, varintDecodeCommand, computeVarintDecode, Buffer.count, hbs, varintDecodeSeq_varintEncodeSeq]⟩

theorem transforms_zigzagDecode {ws : List Word32} (h : 1 ≤ ws.length) :
    Transforms .zigzagDecode (.words (ws.map zzEnc)) (.words ws) none := by
  have hlen : (ws.map zzEnc).length = ws.length := List.length_map _
  exact ⟨h.trans_eq hlen.symm, rfl, fun m d k (hws : readWords m d (ws.map zzEnc).length = ws.map zzEnc) => by
    simp only [commandOf, zigzagDecodeCommand, computeZigzagDecode, Buffer.count, hws, map_zzDec_map_zzEnc]⟩

theorem transforms_deltaDecode {ws : List Word32} (h : 2 ≤ ws.length) :
    Transforms .deltaDecode (.words (deltaEncodeSeq ws)) (.words ws) none := by
  have hlen : (deltaEncodeSeq ws).length = ws.length := length_deltaEncodeSeq ws
  exact ⟨h.trans_eq hlen.symm, rfl, fun m d k (hws : readWords m d (deltaEncodeSeq ws).length = deltaEncodeSeq ws) => by
    simp only [commandOf, deltaDecodeCommand, computeDeltaDecode, Buffer.count, hws, deltaDecodeSeq_deltaEncodeSeq]⟩

/-! ### One command of a pipeline (R100, R119) -/

theorem olen_recordCount (k : Nat) (s : State) : (recordCount (some k) s).olen = .written (BitVec.ofNat 32 k) :=
  congrArg RegVal.written (BitVec.ofInt_natCast 32 k)

/-- A command issued on a buffer that is held succeeds, and the buffer it makes is then held at DST. -/
theorem exec_of_transforms {p : Platform} {i : Instr} {s : State} {a b n : Word32} {x y : Buffer} {c : Option Nat} {k l : Nat}
    (ht : Transforms i x y c) (hx : Held p s a k x) (hn : x.count = n.toNat) (hy : y.size = l) (hb : b ≠ 0#32)
    (hout : Usable p b.toNat l) (hd : Disjoint a.toNat k b.toNat l) :
    ∃ t, exec i (withOperands s a b n) = .next t ∧ t.status = .written 0x0#32 ∧ Held p t b l y ∧
      t.olen = (recordCount c s).olen := by
  obtain ⟨rfl, hwf, rfl, ha, hin, hat⟩ := hx
  obtain ⟨hworks, hinput, hcompute⟩ := ht
  subst hy
  rw [hn] at hworks hinput hcompute
  have hr : (commandOf i).compute s.mem a.toNat n.toNat s.draws = ⟨y, c, s.draws⟩ := hcompute s.mem a.toNat s.draws hat
  have hsize : y.size = outputBytes s.mem a.toNat n.toNat i := by rw [← size_compute i s.mem a.toNat n.toNat s.draws, hr]
  rw [← hinput] at hin hd
  have hready : Ready i (withOperands s a b n) a b n :=
    ⟨⟨⟨rfl, rfl, rfl⟩, ha, hb, hworks⟩, hin, hsize ▸ hout, hsize ▸ hd⟩
  have hwf' := wf_writeTo hwf b.toNat y
  have hat' := at_writeTo hwf b.toNat y
  refine ⟨_, exec_of_ready hready hr, rfl, ?_⟩
  cases c with
  | none => exact ⟨⟨rfl, hwf', rfl, hb, hout, hat'⟩, rfl⟩
  | some v => exact ⟨⟨rfl, hwf', rfl, hb, hout, hat'⟩, rfl⟩

/-! ### The obligations -/

/-- Settles O50, by induction on the sequence: each value's bytes are cut off the front of the stream and decode to it. -/
theorem varintRoundTrip : Obligations.VarintRoundTrip := varintDecodeSeq_varintEncodeSeq

/-- Settles O40: wrapped sums undo wrapped differences, and the other way round. -/
theorem deltaRoundTrip : Obligations.DeltaRoundTrip := fun x _ =>
  ⟨deltaDecodeSeq_deltaEncodeSeq x, deltaEncodeSeq_deltaDecodeSeq x⟩

/-- Settles O42: the laws of the two mappings, on words and element by element. -/
theorem zigzagRoundTrip : Obligations.ZigzagRoundTrip :=
  ⟨fun w => ⟨zzDec_zzEnc w, zzEnc_zzDec w⟩, fun ws => ⟨map_zzDec_map_zzEnc ws, map_zzEnc_map_zzDec ws⟩⟩

/-- Settles O51: each coder undoes its counterpart, from the inside out. -/
theorem fullPipelineRoundTrip : Obligations.FullPipelineRoundTrip := fun k x _ => by
  rw [varintDecodeSeq_varintEncodeSeq, map_zzDec_map_zzEnc, deltaDecodeSeq_deltaEncodeSeq]

/-- Settles O52: six commands, each on the buffer that the one before it left, and the decoders undo the encoders. -/
theorem pipelineThroughMemoryRoundTrip : Obligations.PipelineThroughMemoryRoundTrip := by
  intro s a b c d e f g n m hp hwf hn hnull husable hm hud hab hbc hcd hde hef hfg
  simp only [List.forall_mem_cons] at hnull husable
  obtain ⟨ha, hb, hc, hd, he, hf, hg, -⟩ := hnull
  obtain ⟨hua, hub, huc, hue, huf, hug, -⟩ := husable
  have hLEN : (BitVec.ofNat 32 m).toNat = m :=
    Nat.mod_eq_of_lt (size_lt_of_usable hp (BitVec.toNat_ne_iff_ne.2 hd) hud)
  have hlen : (readWords s.mem a.toNat n.toNat).length = n.toNat := readWords_length s.mem a.toNat n.toNat
  have hheld : Held s.platform s a (4 * n.toNat) (.words (readWords s.mem a.toNat n.toNat)) :=
    ⟨rfl, hwf, size_words hlen, ha, hua, at_readWords s.mem a.toNat n.toNat⟩
  generalize readWords s.mem a.toNat n.toNat = x at hm hheld hlen ⊢
  have hdelta : (deltaEncodeSeq x).length = n.toNat := (length_deltaEncodeSeq x).trans hlen
  have hcodes : ((deltaEncodeSeq x).map zzEnc).length = n.toNat := (List.length_map _).trans hdelta
  obtain ⟨s1, hexec1, hstatus1, hheld1, -⟩ :=
    exec_of_transforms (transforms_deltaEncode (by omega)) hheld hlen (size_words hdelta) hb hub hab
  obtain ⟨s2, hexec2, hstatus2, hheld2, -⟩ :=
    exec_of_transforms (transforms_zigzagEncode (by omega)) hheld1 hdelta (size_words hcodes) hc huc hbc
  obtain ⟨s3, hexec3, hstatus3, hheld3, holen3⟩ :=
    exec_of_transforms (transforms_varintEncode (by omega)) hheld2 hcodes hm.symm hd hud hcd
  obtain ⟨s4, hexec4, hstatus4, hheld4, holen4⟩ :=
    exec_of_transforms (transforms_varintDecode (by omega)) hheld3 (hm.symm.trans hLEN.symm) (size_words hcodes) he hue hde
  obtain ⟨s5, hexec5, hstatus5, hheld5, -⟩ :=
    exec_of_transforms (transforms_zigzagDecode (by omega)) hheld4 hcodes (size_words hdelta) hf huf hef
  obtain ⟨s6, hexec6, hstatus6, hheld6, -⟩ :=
    exec_of_transforms (transforms_deltaDecode (by omega)) hheld5 hdelta (size_words hlen) hg hug hfg
  rw [olen_recordCount, ← hm] at holen3
  rw [olen_recordCount, hcodes, BitVec.ofNat_toNat, BitVec.setWidth_eq] at holen4
  exact ⟨s1, s2, s3, s4, s5, s6, hexec1, hstatus1, hexec2, hstatus2, hexec3, hstatus3, holen3, hexec4, hstatus4, holen4, hexec5,
    hstatus5, hexec6, hstatus6, hlen ▸ hheld6.content⟩

end Sys2Proof.Machine

/-! ## The faults of host actions (spec/60_exceptions.md)

A window access that reaches no register raises RegisterAccess and does nothing else; and the faults that a host action other
than a CMD write can raise are read off `HostEffect`. -/

namespace Sys2Proof.Machine

/-! ### A window access that reaches no register (R42, R242) -/

theorem regOffset_listed (r : RegName) :
    regOffset r = 0x00 ∨ regOffset r = 0x04 ∨ regOffset r = 0x08 ∨ regOffset r = 0x0C ∨ regOffset r = 0x10 ∨
      regOffset r = 0x14 := by
  cases r <;> decide

theorem registerAt_eq_none_of_unlisted {off width : Nat}
    (h : ¬(width = 32 ∧ (off = 0x00 ∨ off = 0x04 ∨ off = 0x08 ∨ off = 0x0C ∨ off = 0x10 ∨ off = 0x14))) :
    registerAt off width = none := by
  refine Option.eq_none_iff_forall_ne_some.2 fun r hr => h ?_
  obtain ⟨hwidth, rfl⟩ := registerAt_eq_some.1 hr
  exact ⟨hwidth, regOffset_listed r⟩

theorem hostWrite_of_registerAt_none {off width : Nat} (h : registerAt off width = none) (v : Word32) (s : State) :
    hostWrite off width v s = .next (raiseFault (.registerAccess off width) s) := by
  simp only [hostWrite, h]

theorem hostRead_of_registerAt_none {off width : Nat} (h : registerAt off width = none) (t : Nat) (s : State) :
    hostRead t off width s = raiseFault (.registerAccess off width) s := by
  simp only [hostRead, h]

/-! ### The faults of an action that is no CMD write (R245) -/

/-- An effect on an unfaulted state that leaves a fault raised it, and is one of the three that do. -/
theorem HostEffect.fault_kind {act : HostAction} {s u : State} {f : FaultRecord} (h : HostEffect act s u)
    (hs : s.fault = none) (hf : u.fault = some f) :
    f.kind = .registerAccess ∨ (f.kind = .unwrittenRegister ∧ ReadsRegister act) ∨
      (f.kind = .busError ∧ AccessesMemory act) := by
  have unfaulted : s.fault ≠ some f := by simp [hs]
  cases h with
  | badAccess => cases hf; exact .inl rfl
  | unwritten _ ha => cases hf; exact .inr (.inl ⟨rfl, ha⟩)
  | missing _ ha => cases hf; exact .inr (.inr ⟨rfl, ha⟩)
  | _ => exact absurd hf unfaulted

/-! ### The obligations -/

/-- Settles O9: the access reaches no register, so it raises the fault, and `advance` leaves a faulted state as it is. -/
theorem badRegisterAccessFaults : Obligations.BadRegisterAccessFaults := by
  rintro s t off width o (h | h) hbad
  · rw [step_at h, runAction, hostWrite_of_registerAt_none (registerAt_eq_none_of_unlisted hbad), thenAdvance_next,
      advance_raiseFault, raiseFault]
  · rw [step_at h, runAction, hostRead_of_registerAt_none (registerAt_eq_none_of_unlisted hbad), advance_raiseFault,
      raiseFault]

/-- Settles O14: the step has one of the effects of `HostEffect` and then moves the host, which touches no fault record. -/
theorem otherActionsFaultOnlyAsListed : Obligations.OtherActionsFaultOnlyAsListed := by
  intro s act t f h hc ht hf
  rw [step_at h] at ht
  obtain ⟨u, p, he, rfl⟩ := runAction_cases hc ht
  exact he.fault_kind h.fault hf

end Sys2Proof.Machine

/-! ## How a run ends (spec/70_reset_and_hazards.md)

No host action but `halt` ends the host (`runAction_halted`): neither a command nor an effect of `HostEffect` touches its
`halted`, and `advance` moves its position alone. -/

namespace Sys2Proof.Machine

/-! ### What every action but `halt` keeps: whether the host has ended -/

@[simp] theorem advance_halted (s : State) : (advance s).host.halted = s.host.halted := by
  obtain ⟨p, hp⟩ := advance_eq s
  rw [hp]

theorem runCommand_halted (i : Instr) (s : State) : (runCommand (commandOf i) s).host.halted = s.host.halted := by
  obtain ⟨_, _, _, _, _, ht, -⟩ := runCommand_frame i s
  rw [ht]

theorem HostEffect.halted {act : HostAction} {s u : State} (h : HostEffect act s u) : u.host.halted = s.host.halted := by
  cases h <;> rfl

theorem runAction_halted {act : HostAction} {s t : State} (hne : act ≠ .halt) (h : runAction act s = .next t) :
    t.host.halted = s.host.halted := by
  by_cases hw : WritesCmd act
  · obtain ⟨v, u, rfl, ⟨r, -, rfl⟩ | ⟨i, -, rfl⟩⟩ := runAction_writesCmd hw h
    · rw [advance_halted, raiseFault_host]
    · rw [advance_halted, runCommand_halted]
  · obtain ⟨u, p, he, rfl⟩ := runAction_cases hw h
    simp [hne, he.halted]

/-! ### The obligations -/

/-- Settles O16: the step changed the state, so it ran an action of a host that had not ended, and only `halt` ends one. -/
theorem runFinishesOnlyByHalt : Obligations.RunFinishesOnlyByHalt := by
  intro s t hr ht hfin hnot
  obtain ⟨act, hat, hrun⟩ := exists_action_of_step_ne hr ht fun heq => hnot (heq ▸ hfin)
  by_cases hact : act = .halt
  · exact hact ▸ hat
  · obtain ⟨-, -, hrunning, -⟩ := hat
    obtain ⟨hended, -⟩ := hfin
    rw [runAction_halted hact hrun, hrunning] at hended
    cases hended

end Sys2Proof.Machine
